-- ==== Sys2Proof/Word.lean ====
section
/-! DEFINITION. The one word width of the machine (spec/00_scope.md R8, R10; spec/20_memory.md R56). -/

namespace Sys2Proof

/-- Eight bits: a tape cell, a program character, an input byte, an output byte (R8, R10, R50). -/
abbrev Byte := BitVec 8

end Sys2Proof
end

