-- ==== Sys2Proof/Syntax.lean ====
section
/-! DEFINITION. The instruction kinds (spec/30_encoding.md R72, R73; spec/44_noop.md R141). -/

namespace Sys2Proof

/-- The closed enumeration of instruction kinds, one constructor per row of spec/opcode_table.json.
No kind has an operand (R71). The NOP keeps the character it was decoded from, which its execution ignores
(the table's field `c`): DESIGN CHOICE, log 14. -/
inductive Instr where
  /-- `>`, kind RIGHT (R90). -/
  | right
  /-- `<`, kind LEFT (R91). -/
  | left
  /-- `+`, kind INC (R100). -/
  | inc
  /-- `-`, kind DEC (R101). -/
  | dec
  /-- `.`, kind OUTPUT (R110). -/
  | output
  /-- `,`, kind INPUT (R111). -/
  | input
  /-- `[`, kind LOOP_OPEN (R120). -/
  | loopOpen
  /-- `]`, kind LOOP_CLOSE (R121). -/
  | loopClose
  /-- Any other character, kind NOP (R140). -/
  | nop (c : Byte)
deriving DecidableEq, Repr

end Sys2Proof
end

