-- ==== Sys2Proof/WellFormed.lean ====
section
/-! DEFINITION. Which instruction terms are instructions of the machine: a NOP's character lies in the NOP space
of spec/30_encoding.md R74, written here as the rule's six ranges and not by way of the decoder. -/

namespace Sys2Proof

/-- The NOP space: 0-42, 47-59, 61, 63-90, 92 and 94-255 (R74). -/
def inNopSpace (c : Byte) : Bool :=
  c.toNat ≤ 42 || (47 ≤ c.toNat && c.toNat ≤ 59) || c.toNat == 61 ||
    (63 ≤ c.toNat && c.toNat ≤ 90) || c.toNat == 92 || 94 ≤ c.toNat

/-- A term of `Instr` that some character decodes to. -/
def Instr.wf : Instr → Bool
  | .right => true
  | .left => true
  | .inc => true
  | .dec => true
  | .output => true
  | .input => true
  | .loopOpen => true
  | .loopClose => true
  | .nop c => inNopSpace c

end Sys2Proof
end

