-- ==== Sys2Proof/Decode.lean ====
section
/-! DEFINITION. Decode and encode (spec/30_encoding.md R70-R76, spec/opcode_table.json). The byte values are the
tokens' ASCII codes, which the spec itself takes from general knowledge (D5, G1): PRESUMED, log 11. -/

namespace Sys2Proof

/-- `Decode(c)` of R72: total on the 8-bit characters, NOP last. -/
def decodeChar (c : Byte) : Instr :=
  if c = 0x3E then .right
  else if c = 0x3C then .left
  else if c = 0x2B then .inc
  else if c = 0x2D then .dec
  else if c = 0x2E then .output
  else if c = 0x2C then .input
  else if c = 0x5B then .loopOpen
  else if c = 0x5D then .loopClose
  else .nop c

/-- Why the decoder gives no instruction. No character is the reason (R75): only the absence of one is. -/
inductive DecodeRefusal where
  /-- There is no character left to decode. -/
  | noCharacter
deriving DecidableEq, Repr

/-- Decode the first instruction of a text and give the rest: an instruction is always one character (R70, R76). -/
def decode : List Byte → Except DecodeRefusal (Instr × List Byte)
  | [] => .error .noCharacter
  | c :: rest => .ok (decodeChar c, rest)

/-- The instructions of a whole text, one per character (R70, R77). Nothing is stripped (R141). -/
def decodeText (text : List Byte) : List Instr := text.map decodeChar

/-- The one character of an instruction, by the opcode map of R73. -/
def encodeChar : Instr → Byte
  | .right => 0x3E
  | .left => 0x3C
  | .inc => 0x2B
  | .dec => 0x2D
  | .output => 0x2E
  | .input => 0x2C
  | .loopOpen => 0x5B
  | .loopClose => 0x5D
  | .nop c => c

/-- The bytes of an instruction: its one character (R70). -/
def encode (i : Instr) : List Byte := [encodeChar i]

/-- The text of a sequence of instructions (R77). -/
def encodeText (is : List Instr) : List Byte := is.flatMap encode

/-- The bytes of an instruction whose bits, numbered as spec/opcode_table.json numbers them, are `w`: one byte
for every started eight of `nbits` bits and at least the one byte that an instruction has, bit 0 in the first. -/
def tableBytes (nbits w : Nat) : List Byte :=
  (List.range (max 1 ((nbits + 7) / 8))).map fun k => BitVec.ofNat 8 (w / 256 ^ k)

/-- What the decoder reads from a table word: the instruction, if the word is one whole instruction. -/
def decodeTableWord (nbits w : Nat) : Option Instr :=
  match decode (tableBytes nbits w) with
  | .ok (i, []) => some i
  | .ok (_, _ :: _) => none
  | .error _ => none

end Sys2Proof
end

