-- ==== Sys2Proof/Config.lean ====
section
/-! DEFINITION. What is fixed for the machine (spec/00_scope.md R6, R7, R9, R15; spec/10_state.md R33).
No field here is a free value: R12 says that no rule of the spec draws a value or leaves an order open. -/

namespace Sys2Proof.Config

/-- N, the number of tape cells (R6). -/
abbrev tapeSize : Nat := 50000

/-- LOW = -(N / 2), the least logical tape index (R15, R22). -/
abbrev low : Int := -25000

/-- HIGH = N / 2 - 1, the greatest logical tape index (R15, R22). -/
abbrev high : Int := 24999

/-- N / 2, the distance from a logical index to its physical index (R15, R22). -/
abbrev bias : Int := 25000

/-- DEFAULT_BUDGET, the value a host passes as B when it has none of its own (R7). The core does not use it. -/
abbrev defaultBudget : Nat := 1000000

/-- MAXCNT = 2^31 - 1, the greatest PLEN, ILEN and B that a launch can have (R9, R10). -/
abbrev maxCount : Nat := 2147483647

/-- What a tape cell that the memory list does not name reads as: RESET makes every cell 0 (R40). -/
abbrev unlistedCell : Byte := 0

end Sys2Proof.Config
end

