-- ==== Sys2Proof/Machine/State.lean ====
section
/-! DEFINITION. The state of the machine (spec/10_state.md R20-R33), its values after RESET (R40), and the reasons
for which the model gives no next state. -/

namespace Sys2Proof.Machine

/-- The tape, kept as (physical index, cell) pairs in the canonical form `Memory.wf` of Machine/Ops.lean: an
unlisted cell reads as `Config.unlistedCell` (R21, R22, R40; log 12). -/
abbrev Memory := List Host.Cell

/-- The run status (R31). The codes are given by `Status.code`; 6 and 7 cannot be held (U16). -/
inductive Status where
  /-- After RESET, no run started. -/
  | idle
  /-- A run is in progress; the core steps. -/
  | run
  /-- The run stopped because ip reached the end of the program, or the program was empty. -/
  | haltEnd
  /-- The run stopped because the budget was spent before the end of the program. -/
  | haltBudget
  /-- A cell access found dp outside LOW..HIGH. -/
  | faultTape
  /-- A bracket scan left the program text. -/
  | faultBracket
deriving DecidableEq, Repr

/-- The two synchronous exceptions of the machine, which the spec calls faults (R170). They are taken: the machine
has a next state, so they are no `Fault` below. -/
inductive Trap where
  /-- A cell access with dp outside LOW..HIGH (R171). -/
  | tapeIndexOutOfRange
  /-- A bracket scan that leaves the program text (R172). -/
  | unmatchedBracket
deriving DecidableEq, Repr

/-- The machine's state: the seven elements of R20, and the launch parameters of R10, which the spec passes to
every step as parameters and which the model holds here because a step takes a state only (R32; log 1).
`dp`, `ip` are signed and `icur`, `bud`, `budget` unsigned integers without a width, as R9 allows (log 2). -/
structure State where
  /-- The tape cells (R21). -/
  tape : Memory
  /-- The data pointer, a logical tape index (R24). -/
  dp : Int
  /-- The instruction pointer, an index into the program text (R25). -/
  ip : Int
  /-- The input cursor: input bytes already consumed (R28). -/
  icur : Nat
  /-- The output accumulator, oldest byte first (R29). -/
  out : List Byte
  /-- The budget not yet spent (R30). -/
  bud : Nat
  /-- The run status (R31). -/
  status : Status
  /-- Launch parameter `prog`: the program text. PLEN is its length (R10). -/
  prog : List Byte
  /-- Launch parameter `inp`: the input bytes. ILEN is its length (R10). -/
  inp : List Byte
  /-- Launch parameter `B`: the budget the run was started with (R10). -/
  budget : Nat
deriving DecidableEq, Repr

/-- The machine after RESET (R40). The spec gives the launch parameters no value before a START: the model has an
empty text, an empty input and B = 0 there (DESIGN CHOICE, log 5). -/
def State.reset : State where
  tape := []
  dp := 0
  ip := 0
  icur := 0
  out := []
  bud := 0
  status := .idle
  prog := []
  inp := []
  budget := 0

/-- Why the model has no next state. The machine's own two faults are not here: they have a next state (`Trap`). -/
inductive Fault where
  /-- Raised by the fetch and by a bracket scan that would read the program text at an index outside 0..PLEN - 1
  other than by running off its end, which R53 says never happens: only states that no run reaches (a negative ip,
  an ip beyond PLEN) have it. Safe: the model stops where the spec gives no meaning (log 4). -/
  | progReadOutOfRange
deriving DecidableEq, Repr

/-- What the model refuses, by name. -/
inductive Refusal where
  /-- An instruction that has no meaning yet. Raised by no arm of this model. Safe. -/
  | notModelled (mnemonic : String)
  /-- Raised by START while status is RUN, which the spec gives no move (R203, U7; log 8). Safe. -/
  | startWhileRunning
  /-- Raised by START with PLEN, ILEN or B above MAXCNT, which the launch parameters cannot represent
  (R10, U9; log 8). Safe. -/
  | launchTooLarge
  /-- Raised by a host read, other than of `status`, while status is RUN (R208, R210; log 9). Safe. -/
  | readWhileRunning
  /-- Raised by a host read of a cell outside LOW..HIGH: there is no such cell (R21; log 9). Safe. -/
  | noSuchCell
deriving DecidableEq, Repr

end Sys2Proof.Machine
end

