-- ==== Sys2Proof/Machine/Ops.lean ====
section
/-! DEFINITION. The named operations over the tape, the streams, the program text and the registers
(spec/20_memory.md R50-R55), taking a fault (spec/60_exceptions.md R178) and the common tail of every instruction
(spec/45_run_loop.md R148, R149). The machine has no return from a fault (R180): START and RESET, which leave a fault
status, are in Machine/HostOps.lean. -/

namespace Sys2Proof.Machine

/-- The outcome of a step of this machine. -/
abbrev Result := Host.Outcome State Fault Refusal

/-! ### The tape as a list of cells -/

/-- The canonical form of a tape: addresses strictly rising, each a physical index below N, and no entry equal to
what an unlisted cell reads as. -/
abbrev Memory.wf (m : Memory) : Prop :=
  m.Pairwise (fun x y => x.1 < y.1) ∧ ∀ e ∈ m, e.1 < Config.tapeSize ∧ e.2 ≠ Config.unlistedCell

/-- The cell at a physical index. -/
def Memory.read : Memory → Nat → Byte
  | [], _ => Config.unlistedCell
  | (b, x) :: m, a => if a = b then x else Memory.read m a

/-- Put an entry at its place in the rising order, in place of the entry with its address if there is one. -/
def Memory.insert : Memory → Nat → Byte → Memory
  | [], a, v => [(a, v)]
  | (b, x) :: m, a, v =>
    if a < b then (a, v) :: (b, x) :: m
    else if a = b then (a, v) :: m
    else (b, x) :: Memory.insert m a v

/-- Write a cell. The value that an unlisted cell reads as is written by removing the entry. -/
def Memory.write (m : Memory) (a : Nat) (v : Byte) : Memory :=
  if v = Config.unlistedCell then m.filter (fun e => decide (e.1 ≠ a)) else Memory.insert m a v

/-! ### Logical indices -/

/-- LOW <= i <= HIGH: the logical index i has a cell (R21, R22). -/
abbrev InTape (i : Int) : Prop := Config.low ≤ i ∧ i ≤ Config.high

/-- phys(i) = i + N / 2, the physical index of a logical index (R15, R22). -/
def phys (i : Int) : Nat := (i + Config.bias).toNat

/-- `tape[i]`, no bounds check: used where the check has been made (R14, R21). -/
def State.tapeAt (s : State) (i : Int) : Byte := Memory.read s.tape (phys i)

/-- The state with `tape[i] <- v`, no bounds check: used where the check has been made (R14). -/
def State.setTape (s : State) (i : Int) (v : Byte) : State := { s with tape := Memory.write s.tape (phys i) v }

/-- The cell at a logical index, if there is one: what a test or a statement reads. -/
def State.cell (s : State) (i : Int) : Option Byte := if InTape i then some (s.tapeAt i) else none

/-! ### Registers and streams -/

/-- `dp <- dp + d` (R24, R104). -/
def State.moveDp (s : State) (d : Int) : State := { s with dp := s.dp + d }

/-- `ip <- q` (R120, R121, R124). -/
def State.setIp (s : State) (q : Int) : State := { s with ip := q }

/-- `status <- v`. -/
def State.setStatus (s : State) (v : Status) : State := { s with status := v }

/-- `OutAppend(v)` of R55. -/
def State.outAppend (s : State) (v : Byte) : State := { s with out := s.out ++ [v] }

/-- `InTake()` of R54: the next input byte and the cursor moved past it, or 0 and the cursor where it was. -/
def State.inTake (s : State) : Byte × State :=
  match s.inp[s.icur]? with
  | some v => (v, { s with icur := s.icur + 1 })
  | none => (0, s)

/-- `ProgRead(i)` of R53: the program character at index i, if there is one. -/
def progRead (prog : List Byte) (i : Int) : Option Byte := if i < 0 then none else prog[i.toNat]?

/-! ### The end of an instruction -/

/-- The common tail `ip <- ip + 1; bud <- bud - 1` of every instruction that did not fault (R148, R149). -/
def State.retire (s : State) : State := { s with ip := s.ip + 1, bud := s.bud - 1 }

/-- An instruction completes: the common tail, and the next state. -/
def complete (s : State) : Result := .next s.retire

/-- The status a fault leaves, which is also its cause code (R171, R172, R173). -/
def Trap.status : Trap → Status
  | .tapeIndexOutOfRange => .faultTape
  | .unmatchedBracket => .faultBracket

/-- Fault entry (R178): `status` takes the fault's value and nothing else changes. -/
def State.takeFault (s : State) (e : Trap) : State := s.setStatus e.status

/-- `raise e` of R14: the fault is taken and the rest of the step does not happen (R150). -/
def raise (e : Trap) (s : State) : Result := .next (s.takeFault e)

/-! ### The bounds-checked tape primitives -/

/-- The bounds check of R52, before anything else happens. -/
def checkTape (i : Int) (s : State) (k : Result) : Result :=
  if InTape i then k else raise .tapeIndexOutOfRange s

/-- `MemRead(i, 1)` of R52; `k` is what the instruction does with the value. -/
def memRead (i : Int) (s : State) (k : Byte → Result) : Result := checkTape i s (k (s.tapeAt i))

/-- `MemWrite(i, 1, v)` of R52; `k` is what the instruction does after the write. -/
def memWrite (i : Int) (v : Byte) (s : State) (k : State → Result) : Result := checkTape i s (k (s.setTape i v))

/-! ### The status register and the counter -/

/-- The code of a status in the 3-bit register (R31). -/
def Status.code : Status → BitVec 3
  | .idle => 0
  | .run => 1
  | .haltEnd => 2
  | .haltBudget => 3
  | .faultTape => 4
  | .faultBracket => 5

/-- A terminal status: the run is over (R31, R154). -/
def Status.terminal : Status → Bool
  | .idle => false
  | .run => false
  | .haltEnd => true
  | .haltBudget => true
  | .faultTape => true
  | .faultBracket => true

/-- The number of instructions completed in the run, B - bud (R149, R183). -/
def State.completed (s : State) : Nat := s.budget - s.bud

end Sys2Proof.Machine
end

