-- ==== Sys2Proof/Machine/Operands.lean ====
section
/-! DEFINITION. The one operand form of the machine: the cell at the data pointer, implied by the instruction
(spec/30_encoding.md R71; spec/20_memory.md R51). -/

namespace Sys2Proof.Machine

/-- Read the cell at dp, or take TapeIndexOutOfRange (R51, R52). -/
def readOperand (s : State) (k : Byte → Result) : Result := memRead s.dp s k

/-- Write the cell at dp, or take TapeIndexOutOfRange (R51, R52). -/
def writeOperand (v : Byte) (s : State) (k : State → Result) : Result := memWrite s.dp v s k

/-- Read the cell at dp and write `f` of it to the same cell: the read-modify-write of R58. -/
def modifyOperand (f : Byte → Byte) (s : State) : Result :=
  readOperand s fun v => writeOperand (f v) s complete

end Sys2Proof.Machine
end

