-- ==== Sys2Proof/Machine/ByteIO.lean ====
section
/-! DEFINITION. The meanings of `.` and `,` (spec/42_io.md R110-R113). -/

namespace Sys2Proof.Machine

/-- `.`: append the cell at dp to the output (R110). -/
def execOutput (s : State) : Result := readOperand s fun v => complete (s.outAppend v)

/-- `,`: store the next input byte, or 0, in the cell at dp; the bounds test comes before the input is touched (R111). -/
def execInput (s : State) : Result :=
  checkTape s.dp s (writeOperand s.inTake.1 s.inTake.2 complete)

end Sys2Proof.Machine
end

