-- ==== Sys2Proof/Machine/CellArithmetic.lean ====
section
/-! DEFINITION. The meanings of `+` and `-` (spec/41_cell_arithmetic.md R100-R103): modulo 256, no signal. -/

namespace Sys2Proof.Machine

/-- v -> (v + 1) mod 256 (R102). -/
def increment (v : Byte) : Byte := v + 1

/-- v -> (v - 1) mod 256 (R102). -/
def decrement (v : Byte) : Byte := v - 1

/-- `+`: increment the cell at dp (R100). -/
def execInc (s : State) : Result := modifyOperand increment s

/-- `-`: decrement the cell at dp (R101). -/
def execDec (s : State) : Result := modifyOperand decrement s

end Sys2Proof.Machine
end

