-- ==== Sys2Proof/Machine/Flags.lean ====
section
/-! DEFINITION. The machine has no flag, condition code or predicate register (spec/10_state.md R27). The only
condition an instruction tests is whether the cell is zero; it is computed when it is needed and kept nowhere. -/

namespace Sys2Proof.Machine

/-- The zero test of `[` and `]` (R27, R120, R121). -/
def cellIsZero (v : Byte) : Bool := v == 0

end Sys2Proof.Machine
end

