-- ==== Sys2Proof/Machine/JumpEngine.lean ====
section
/-! DEFINITION. The bracket-matching jump engine (spec/43_loops_and_jump_engine.md R122-R129). The scan position and
the nesting counter live only inside one step (spec/10_state.md R34): they are arguments here, not state.
The scans walk the characters beside the bracket as a list, in the order in which the rules examine them
(DEDUCED from R122 and R123, log 16). -/

namespace Sys2Proof.Machine

/-- The nesting counter of a forward scan after a character of kind `k` (R122). -/
def nestForward (c : Nat) : Instr → Nat
  | .loopOpen => c + 1
  | .loopClose => c - 1
  | .right => c
  | .left => c
  | .inc => c
  | .dec => c
  | .output => c
  | .input => c
  | .nop _ => c

/-- The nesting counter of a backward scan after a character of kind `k` (R123). -/
def nestBackward (c : Nat) : Instr → Nat
  | .loopClose => c + 1
  | .loopOpen => c - 1
  | .right => c
  | .left => c
  | .inc => c
  | .dec => c
  | .output => c
  | .input => c
  | .nop _ => c

/-- The loop of `ScanForward` (R122): the characters from index `p` on, and the counter before them. It gives the
index at which the counter reaches 0, or none when the text ends first. -/
def scanForwardFrom : List Byte → Nat → Nat → Option Nat
  | [], _, _ => none
  | ch :: rest, p, c =>
    if nestForward c (decodeChar ch) = 0 then some p
    else scanForwardFrom rest (p + 1) (nestForward c (decodeChar ch))

/-- The loop of `ScanBackward` (R123): the characters below the position, nearest first, and the counter before
them. The index of the first is the number of those after it. -/
def scanBackwardFrom : List Byte → Nat → Option Nat
  | [], _ => none
  | ch :: rest, c =>
    if nestBackward c (decodeChar ch) = 0 then some rest.length
    else scanBackwardFrom rest (nestBackward c (decodeChar ch))

/-- What a scan answers. -/
inductive ScanResult where
  /-- It landed on the matching bracket, at index `q`. -/
  | found (q : Nat)
  /-- It left the program text: UnmatchedBracket (R172). -/
  | unmatched
  /-- It would read the text outside 0..PLEN - 1 (R53 says it never does; log 4). -/
  | outside
deriving DecidableEq, Repr

/-- A scan loop's answer, none being the end of the text. -/
def ScanResult.ofIndex : Option Nat → ScanResult
  | some q => .found q
  | none => .unmatched

/-- `ScanForward(i)` of R122. From below index -1 the first character read would be at a negative index. -/
def scanForward (prog : List Byte) (i : Int) : ScanResult :=
  if i + 1 < 0 then .outside
  else .ofIndex (scanForwardFrom (prog.drop (i + 1).toNat) (i + 1).toNat 1)

/-- `ScanBackward(i)` of R123. From above index PLEN the first character read would be beyond the text. -/
def scanBackward (prog : List Byte) (i : Int) : ScanResult :=
  if (prog.length : Int) < i then .outside
  else .ofIndex (scanBackwardFrom (prog.take i.toNat).reverse 1)

/-- A taken jump (R120, R121, R124): `ip` is set to the matching bracket and the uniform advance then moves past it,
or UnmatchedBracket is taken. -/
def jumpTo (r : ScanResult) (s : State) : Result :=
  match r with
  | .found q => complete (s.setIp q)
  | .unmatched => raise .unmatchedBracket s
  | .outside => .fault .progReadOutOfRange

end Sys2Proof.Machine
end

