-- ==== Sys2Proof/Machine/Loops.lean ====
section
/-! DEFINITION. The meanings of `[` and `]` (spec/43_loops_and_jump_engine.md R120, R121). -/

namespace Sys2Proof.Machine

/-- `[`: jump past the matching `]` if the cell at dp is zero (R120). -/
def execLoopOpen (s : State) : Result :=
  readOperand s fun v => if cellIsZero v then jumpTo (scanForward s.prog s.ip) s else complete s

/-- `]`: jump to just after the matching `[` if the cell at dp is not zero (R121). -/
def execLoopClose (s : State) : Result :=
  readOperand s fun v => if cellIsZero v then complete s else jumpTo (scanBackward s.prog s.ip) s

end Sys2Proof.Machine
end

