-- ==== Sys2Proof/Machine/Noop.lean ====
section
/-! DEFINITION. The meaning of every other character (spec/44_noop.md R140): nothing but the common tail. -/

namespace Sys2Proof.Machine

/-- NOP: the character is ignored; the advance and the unit of budget are not (R140). -/
def execNop (_c : Byte) (s : State) : Result := complete s

end Sys2Proof.Machine
end

