-- ==== Sys2Proof/Machine/PointerMoves.lean ====
section
/-! DEFINITION. The meanings of `>` and `<` (spec/40_pointer_moves.md R90-R92): no bounds check, no fault. -/

namespace Sys2Proof.Machine

/-- `>`: dp <- dp + 1 (R90). -/
def execRight (s : State) : Result := complete (s.moveDp 1)

/-- `<`: dp <- dp - 1 (R91). -/
def execLeft (s : State) : Result := complete (s.moveDp (-1))

end Sys2Proof.Machine
end

