-- ==== Sys2Proof/Machine/RunLoop.lean ====
section
/-! DEFINITION. One turn of the run loop (spec/45_run_loop.md R145, R146), over whatever executes an instruction;
and where an instruction is placed so that the next turn runs it. Step.lean closes both over `exec`. -/

namespace Sys2Proof.Machine

/-- The first stop test, ip >= PLEN (R146). -/
def State.atEnd (s : State) : Bool := decide ((s.prog.length : Int) ≤ s.ip)

/-- The second stop test, bud = 0 (R146). -/
def State.spent (s : State) : Bool := s.bud == 0

/-- What the core does while status is not RUN: it makes no step and keeps all its state (R145, R187; DESIGN CHOICE
that the model's step then answers the same state, log 3). -/
def rest (s : State) : Result := .next s

/-- Fetch, decode and execute the character at ip (R145). A fetch outside the text stops: R53 says there is none. -/
def dispatch (execute : Instr → State → Result) (s : State) : Result :=
  match progRead s.prog s.ip with
  | none => .fault .progReadOutOfRange
  | some c => execute (decodeChar c) s

/-- `Step` of R145: the two stop tests in their order, then the dispatch. -/
def runLoop (execute : Instr → State → Result) (s : State) : Result :=
  if s.status = .run then
    if s.atEnd then .next (s.setStatus .haltEnd)
    else if s.spent then .next (s.setStatus .haltBudget)
    else dispatch execute s
  else rest s

/-- The text with the character `c` at index `n`: what stands there is replaced, and a text too short to reach
it is filled up with NOPs (the character 0). -/
def placeChar (text : List Byte) (n : Nat) (c : Byte) : List Byte :=
  text.take n ++ List.replicate (n - text.length) 0 ++ c :: text.drop (n + 1)

/-- What a START has to have done for the next turn to run the character `c` (R201, R204): the text holds it at ip,
a run is in progress, and a unit of budget is left (log 7). -/
def State.withNextChar (s : State) (c : Byte) : State :=
  { s with
    ip := s.ip.toNat
    prog := placeChar s.prog s.ip.toNat c
    status := .run
    bud := max 1 s.bud
    budget := max 1 s.budget }

end Sys2Proof.Machine
end

