-- ==== Sys2Proof/Machine/Step.lean ====
section
/-! DEFINITION. One step of the core (spec/45_run_loop.md R145): the run loop over the dispatcher. -/

namespace Sys2Proof.Machine

/-- `Step` of R145. -/
def step (s : State) : Host.Outcome State Fault Refusal := runLoop exec s

/-- The state with the table word `w` stored where `step` fetches its next instruction, and all that START would have
set for it to run (log 7). An instruction is its one character: the bits above it are no part of it. -/
def State.withFetchWord (s : State) (_nbits w : Nat) : State := s.withNextChar (BitVec.ofNat 8 w)

end Sys2Proof.Machine
end

