-- ==== Sys2Proof/Machine/HostOps.lean ====
section
/-! DEFINITION. What the host can do to the core (spec/70_reset_and_hazards.md R200-R204, R208, R210;
spec/60_exceptions.md R186; spec/45_run_loop.md R152): RESET, START, reads. These are the host's operations, not steps
of the core (log 10). -/

namespace Sys2Proof.Machine

/-- RESET, in any status (R200). -/
def hostReset (_s : State) : State := State.reset

/-- PLEN, ILEN and B are at most MAXCNT (R10). -/
abbrev LaunchFits (prog inp : List Byte) (budget : Nat) : Prop :=
  prog.length ≤ Config.maxCount ∧ inp.length ≤ Config.maxCount ∧ budget ≤ Config.maxCount

/-- START with an empty program (R202): `out` and `status` change, nothing else does; the input and the budget given
are ignored (log 6). -/
def State.shortCircuit (s : State) : State := { s with out := [], status := .haltEnd }

/-- START with PLEN > 0 (R201, R41): the tape is not touched. -/
def State.launch (s : State) (prog inp : List Byte) (budget : Nat) : State :=
  { s with
    ip := 0
    dp := 0
    out := []
    icur := 0
    bud := budget
    status := .run
    prog := prog
    inp := inp
    budget := budget }

/-- START(prog, PLEN, inp, ILEN, B) (R201, R202, R203). START while RUN has no move (U7) and a launch above MAXCNT is
not representable (U9): both are refused by name (log 8). -/
def hostStart (prog inp : List Byte) (budget : Nat) (s : State) : Result :=
  if s.status = .run then .refused .startWhileRunning
  else if LaunchFits prog inp budget then
    if prog.length = 0 then .next s.shortCircuit else .next (s.launch prog inp budget)
  else .refused .launchTooLarge

/-- What the host can read (R210). -/
inductive HostRead where
  /-- The status code. -/
  | status
  /-- The output bytes. -/
  | out
  /-- The instruction pointer. -/
  | ip
  /-- The data pointer. -/
  | dp
  /-- The input cursor. -/
  | icur
  /-- The budget left. -/
  | bud
  /-- The cell at a logical index. -/
  | cell (i : Int)
deriving DecidableEq, Repr

/-- What a host read gives. -/
inductive HostValue where
  /-- A status code (R31). -/
  | code (c : BitVec 3)
  /-- Output bytes. -/
  | bytes (bs : List Byte)
  /-- A signed integer. -/
  | int (v : Int)
  /-- An unsigned integer. -/
  | count (n : Nat)
  /-- A cell. -/
  | byte (v : Byte)
deriving DecidableEq, Repr

/-- The value of a readable element, with no check of the status. -/
def State.look (s : State) : HostRead → Except Refusal HostValue
  | .status => .ok (.code s.status.code)
  | .out => .ok (.bytes s.out)
  | .ip => .ok (.int s.ip)
  | .dp => .ok (.int s.dp)
  | .icur => .ok (.count s.icur)
  | .bud => .ok (.count s.bud)
  | .cell i => match s.cell i with
    | some v => .ok (.byte v)
    | none => .error .noSuchCell

/-- A host read: `status` at any time, everything else only while status is not RUN (R208, R210; log 9). It changes
nothing. -/
def hostRead (r : HostRead) (s : State) : Except Refusal HostValue :=
  if s.status = .run ∧ r ≠ .status then .error .readWhileRunning else s.look r

/-- The result of a run (R152): the output, when the run ended normally; none in any other status. -/
def runResult (s : State) : Option (List Byte) :=
  match s.status with
  | .haltEnd => some s.out
  | .haltBudget => some s.out
  | .idle => none
  | .run => none
  | .faultTape => none
  | .faultBracket => none

end Sys2Proof.Machine
end

