-- ==== Sys2Proof/Safety.lean ====
section
/-! DEFINITION. The terms in which claims about the core are stated: when a step is a dispatch, what holds in every
reachable state (spec/10_state.md R36, R37, R174), which bracket is the partner of which (spec/43_loops_and_jump_engine.md
R122, R123, in their declarative form), and what a step leaves alone. -/

namespace Sys2Proof.Machine

/-- The core is about to dispatch the character at ip: neither stop test of R146 applies and ip is an index of the text. -/
abbrev Dispatching (s : State) : Prop :=
  s.status = .run ∧ 0 ≤ s.ip ∧ s.ip < s.prog.length ∧ 0 < s.bud

/-- What holds in every state that the core can be in. -/
structure State.Inv (s : State) : Prop where
  /-- The tape is in canonical form and names cells of the tape only (R21). -/
  tape : Memory.wf s.tape
  /-- PLEN, ILEN and B are at most MAXCNT (R10). -/
  fits : LaunchFits s.prog s.inp s.budget
  /-- ip is never negative (R36). -/
  ipNonneg : 0 ≤ s.ip
  /-- ip never passes the end of the text (R36). -/
  ipLe : s.ip ≤ s.prog.length
  /-- What is left of the budget is at most B (R30). -/
  budLe : s.bud ≤ s.budget
  /-- dp moves by at most one an instruction, to the right (R37). -/
  dpLe : s.dp ≤ s.completed
  /-- dp moves by at most one an instruction, to the left (R37). -/
  dpGe : -(s.completed : Int) ≤ s.dp
  /-- No more input is consumed than there is (R28). -/
  icurLe : s.icur ≤ s.inp.length
  /-- At most one input byte is consumed an instruction (R37). -/
  icurLeCompleted : s.icur ≤ s.completed
  /-- At most one byte is appended an instruction (R29, R37). -/
  outLe : s.out.length ≤ s.completed
  /-- HALT_BUDGET means what R31 says: the budget is spent and the program is not at its end. -/
  haltBudget : s.status = .haltBudget → s.bud = 0 ∧ s.ip < s.prog.length
  /-- After FAULT_TAPE, dp is the offending index (R174). -/
  faultTape : s.status = .faultTape → ¬ InTape s.dp
  /-- After FAULT_BRACKET, dp is in range and ip is the index of a bracket (R174, R177). -/
  faultBracket : s.status = .faultBracket →
    InTape s.dp ∧ (progRead s.prog s.ip = some 0x5B ∨ progRead s.prog s.ip = some 0x5D)

/-- The states that steps of the core and operations of the host lead to, from the state after RESET. -/
inductive Reachable : State → Prop where
  | reset : Reachable State.reset
  | step {s t : State} : Reachable s → step s = .next t → Reachable t
  | hostReset {s : State} : Reachable s → Reachable (hostReset s)
  | hostStart {s t : State} {prog inp : List Byte} {budget : Nat} :
      Reachable s → hostStart prog inp budget s = .next t → Reachable t

/-- `k` steps of the core, or the first stop (R151): `Host.Core.run` of this machine, over its own types. -/
def runSteps : Nat → State → Result
  | 0, s => .next s
  | k + 1, s =>
    match step s with
    | .next t => runSteps k t
    | .fault r => .fault r
    | .refused r => .refused r

/-- The characters at indices a..b - 1. -/
def charsBetween (text : List Byte) (a b : Nat) : List Byte := (text.drop a).take (b - a)

/-- The number of `[` in a text. -/
def opens (text : List Byte) : Nat := text.count 0x5B

/-- The number of `]` in a text. -/
def closes (text : List Byte) : Nat := text.count 0x5D

/-- An index q > i of the text such that the number of `[` in positions i + 1..q is one less than the number of `]` in
those positions (R122). -/
abbrev ForwardBalanced (text : List Byte) (i q : Nat) : Prop :=
  i < q ∧ q < text.length ∧
    opens (charsBetween text (i + 1) (q + 1)) + 1 = closes (charsBetween text (i + 1) (q + 1))

/-- The least such index: the partner of the `[` at i (R122). -/
abbrev ForwardPartner (text : List Byte) (i q : Nat) : Prop :=
  ForwardBalanced text i q ∧ ∀ r, r < q → ¬ ForwardBalanced text i r

/-- There is no such index: a forward scan from i leaves the text (R122, R172). -/
abbrev NoForwardPartner (text : List Byte) (i : Nat) : Prop :=
  ∀ q, q < text.length → ¬ ForwardBalanced text i q

/-- An index q < i such that the number of `]` in positions q..i - 1 is one less than the number of `[` in those
positions (R123). -/
abbrev BackwardBalanced (text : List Byte) (i q : Nat) : Prop :=
  q < i ∧ closes (charsBetween text q i) + 1 = opens (charsBetween text q i)

/-- The greatest such index: the partner of the `]` at i (R123). -/
abbrev BackwardPartner (text : List Byte) (i q : Nat) : Prop :=
  BackwardBalanced text i q ∧ ∀ r, r < i → q < r → ¬ BackwardBalanced text i r

/-- There is no such index: a backward scan from i leaves the text (R123, R172). -/
abbrev NoBackwardPartner (text : List Byte) (i : Nat) : Prop :=
  ∀ q, q < i → ¬ BackwardBalanced text i q

/-- Every byte of tape memory but the one at physical index `a` reads as before. -/
def SameMemoryBut (a : Nat) (s t : State) : Prop :=
  ∀ b, b ≠ a → Memory.read t.tape b = Memory.read s.tape b

/-- Every cell of the tape but the one at logical index `d` is as it was. For a `d` outside LOW..HIGH, where there is no
cell, that is every cell (R21, R51). -/
def SameCellsBut (d : Int) (s t : State) : Prop := ∀ i, i ≠ d → t.cell i = s.cell i

/-- The instructions that access a cell (R171). -/
def accessesCell : Instr → Bool
  | .right => false
  | .left => false
  | .inc => true
  | .dec => true
  | .output => true
  | .input => true
  | .loopOpen => true
  | .loopClose => true
  | .nop _ => false

/-- A result with its next state changed by `f`; a stop stays as it is. -/
def mapNext (f : State → State) : Result → Result
  | .next s => .next (f s)
  | .fault r => .fault r
  | .refused r => .refused r

end Sys2Proof.Machine
end

