-- ==== Sys2Proof/Certificates/Slice0/Obligations.lean ====
section
/-! DEFINITION. The statements about the model that the provers are given. Each docstring names the rules of spec/ that
the statement formalises, the decision D<n> of spec/92_eei_decisions.md where a clause is the spec's own choice, and the
log entry where it is the model's. The byte values of the tokens are those of R72 and R73 (D5; log 11). -/

open Sys2Proof Sys2Proof.Machine

/-! ### Reset, the invariant, and totality -/

/-- R40, R200: after RESET, in whatever status it is issued, every state element has the value of the table of R40.
The zero cells are decision D16, `bud` and `status` decision D9. The launch parameters, which are not in the table, are
spoken of only in the last clause: RESET gives the model's reset state (their values there are the model's, log 5). -/
def Obligations.ResetSetsEveryElement : Prop :=
  ∀ s : State,
    (hostReset s).status = .idle ∧ (hostReset s).dp = 0 ∧ (hostReset s).ip = 0 ∧ (hostReset s).icur = 0 ∧
    (hostReset s).out = [] ∧ (hostReset s).bud = 0 ∧
    (∀ i : Int, -25000 ≤ i → i ≤ 24999 → (hostReset s).cell i = some 0) ∧
    hostReset s = Sys2Proof.core.reset

/-- The invariant of reachable states holds after RESET. Its clauses about PLEN, ILEN and B speak of the values the model
gives the launch parameters there, which is the model's choice (log 5). -/
def Obligations.ResetMeetsInvariant : Prop := State.reset.Inv

/-- R21, R28-R31, R36, R37, R174: every step, from every state with the invariant, leads to a state with it. -/
def Obligations.StepKeepsInvariant : Prop :=
  ∀ s t : State, s.Inv → step s = .next t → t.Inv

/-- RESET and START keep the invariant too. After START with an empty program the clauses that hold ip against PLEN, icur
against ILEN and bud against B hold because the model keeps the launch parameters of the run before: the model's choice
(log 6, unsafe), since R202 keeps ip, icur and bud and says nothing of the old parameters. After RESET they speak of the
launch parameters of log 5. -/
def Obligations.HostOperationsKeepInvariant : Prop :=
  (∀ s : State, s.Inv → (hostReset s).Inv) ∧
  (∀ (s t : State) (prog inp : List Byte) (budget : Nat),
    s.Inv → hostStart prog inp budget s = .next t → t.Inv)

/-- From every state with the invariant a step answers a next state, no fault, no refusal. While status is RUN this is the
totality of R145; in every other status the spec says that the core makes no step, and that the model's step then answers
the same state is the model's choice (log 3). -/
def Obligations.StepAnswersNextUnderInvariant : Prop :=
  ∀ s : State, s.Inv → ∃ t, step s = .next t

/-- The one stop of the model, by its own choice (log 4): an instruction stops only where a bracket scan would begin outside the text, in states
with ip below -1 or above PLEN, which the invariant rules out; and it is never refused. -/
def Obligations.ExecStopsOnlyOutsideText : Prop :=
  ∀ (i : Instr) (s : State),
    (∀ f, exec i s = .fault f → f = .progReadOutOfRange ∧ (s.ip + 1 < 0 ∨ s.prog.length < s.ip) ∧
      (i = .loopOpen ∨ i = .loopClose)) ∧
    (∀ r, exec i s ≠ .refused r)

/-- R36, R148: in every reachable state 0 <= ip <= PLEN. A step at ip < PLEN leaves ip where it is (a fault, or the halt
of the spent budget), or advances it by 1, or sets it to q + 1 where q is the index of the text on which the scan of the
bracket at ip lands. That the first clause holds after START with an empty program too, where ip is kept and PLEN is 0,
rests on the model keeping the text of the run before: the model's choice (log 6, unsafe). -/
def Obligations.IpStaysInText : Prop :=
  (∀ s, Reachable s → 0 ≤ s.ip ∧ s.ip ≤ s.prog.length) ∧
  (∀ (s t : State) (n : Nat), s.status = .run → s.ip = n → n < s.prog.length → step s = .next t →
    (t.ip = s.ip ∧ t.status ≠ .run) ∨
    (t.ip = s.ip + 1 ∧ t.status = .run) ∨
    (∃ q : Nat, q < s.prog.length ∧ t.ip = (q : Int) + 1 ∧ t.status = .run ∧
      ((s.prog[n]? = some 0x5B ∧ scanForward s.prog n = .found q) ∨
       (s.prog[n]? = some 0x5D ∧ scanBackward s.prog n = .found q))))

/-- R37: in every reachable state the counters are bounded by the number k = B - bud of instructions completed, so that
every pointer and counter fits its width of R9. After START with an empty program the clauses that hold against B, PLEN
and ILEN (k + bud = B, ip <= PLEN and icur <= ILEN among them) rest on the model keeping the launch parameters of the run
before: the model's choice (log 6, unsafe). After RESET they speak of the launch parameters of log 5. -/
def Obligations.ReachableCountersBounded : Prop :=
  ∀ s, Reachable s →
    s.completed + s.bud = s.budget ∧ s.budget ≤ 2147483647 ∧
    |s.dp| ≤ s.completed ∧ s.icur ≤ min s.completed s.inp.length ∧ s.out.length ≤ s.completed ∧
    s.ip ≤ s.prog.length ∧ s.prog.length ≤ 2147483647 ∧
    -(2 ^ 31 : Int) ≤ s.dp ∧ s.dp < 2 ^ 31 ∧ -(2 ^ 31 : Int) ≤ s.ip ∧ s.ip < 2 ^ 31

/-! ### Decode and encode -/

/-- R70, R72, R77: the text of any sequence of well-formed instructions decodes to that sequence, and the decoder reads
an instruction from the front of any text that begins with its character. -/
def Obligations.DecodeEncodeAgree : Prop :=
  (∀ is : List Instr, (∀ i ∈ is, i.wf = true) → decodeText (encodeText is) = is) ∧
  (∀ (i : Instr) (rest : List Byte), i.wf = true → decode (encode i ++ rest) = .ok (i, rest))

/-- R70, R72, R141: every text is the text of the instructions it decodes to, one well-formed instruction a character,
none stripped. -/
def Obligations.EncodeDecodeAgree : Prop :=
  ∀ text : List Byte,
    encodeText (decodeText text) = text ∧ (decodeText text).length = text.length ∧
    ∀ i ∈ decodeText text, i.wf = true

/-- R73: words of the opcode map, written out in bits, decode to their kinds. -/
def Obligations.OpcodeMapWordsDecode : Prop :=
  decodeTableWord 8 0b00111110 = some .right ∧ decodeTableWord 8 0b00111100 = some .left ∧
  decodeTableWord 8 0b00101011 = some .inc ∧ decodeTableWord 8 0b00101101 = some .dec ∧
  decodeTableWord 8 0b00101110 = some .output ∧ decodeTableWord 8 0b00101100 = some .input ∧
  decodeTableWord 8 0b01011011 = some .loopOpen ∧ decodeTableWord 8 0b01011101 = some .loopClose ∧
  decodeTableWord 8 0b00000000 = some (.nop 0)

/-- R74: a character is a NOP exactly when it lies in one of the six ranges, and there are 248 of them. -/
def Obligations.NopSpaceIsTheSixRanges : Prop :=
  (∀ c : Byte, decodeChar c = .nop c ↔
    (c.toNat ≤ 42 ∨ (47 ≤ c.toNat ∧ c.toNat ≤ 59) ∨ c.toNat = 61 ∨ (63 ≤ c.toNat ∧ c.toNat ≤ 90) ∨
      c.toNat = 92 ∨ 94 ≤ c.toNat)) ∧
  ((List.range 256).filter fun n => decodeChar (BitVec.ofNat 8 n) == .nop (BitVec.ofNat 8 n)).length = 248

/-! ### The run loop -/

/-- R145: where neither stop test applies, a step is the execution of the instruction decoded from the character at ip;
the model's `exec` holds the common tail, and the step adds nothing. -/
def Obligations.StepRunsDecodedInstruction : Prop :=
  ∀ (s : State) (n : Nat) (c : Byte),
    s.status = .run → s.ip = n → s.prog[n]? = some c → 0 < s.bud → step s = exec (decodeChar c) s

/-- R146: the two stop tests, before every dispatch, the end of the program first: when both hold it wins. A halting step
changes `status` only. The two status values, and so what the order decides, are decision D23. -/
def Obligations.StopTestsInOrder : Prop :=
  ∀ s : State, s.status = .run →
    (s.prog.length ≤ s.ip → step s = .next { s with status := .haltEnd }) ∧
    (s.ip < s.prog.length → s.bud = 0 → step s = .next { s with status := .haltBudget })

/-- R145, R187: while status is not RUN the core keeps all its state. That the model's step then answers the same state,
and not a stop, is the model's choice (log 3). -/
def Obligations.NoStepUnlessRunning : Prop :=
  ∀ s : State, s.status ≠ .run → step s = .next s

/-- R149: every dispatched instruction that does not fault costs one unit of budget, whatever its kind and however long
its scan; a faulting instruction (decision D11) and a halting step cost nothing; B - bud counts the instructions completed. -/
def Obligations.EachInstructionCostsOne : Prop :=
  (∀ (i : Instr) (s t : State), s.status = .run → 0 < s.bud → exec i s = .next t →
    (t.status = .run → t.bud + 1 = s.bud ∧ (s.bud ≤ s.budget → t.completed = s.completed + 1)) ∧
    (t.status ≠ .run → t.bud = s.bud)) ∧
  (∀ s t : State, s.status = .run → (s.prog.length ≤ s.ip ∨ s.bud = 0) → step s = .next t → t.bud = s.bud)

/-- R151: every run ends. A running core with `bud` units left is in a terminal status after at most `bud` dispatches and
one more step. Where a fault or the end comes earlier, the steps left over answer the same state: that the model's step
does so outside RUN, where the core makes no step, is the model's choice (log 3). -/
def Obligations.EveryRunEnds : Prop :=
  ∀ s : State, s.Inv → s.status = .run →
    ∃ t, runSteps (s.bud + 1) s = .next t ∧ t.status.terminal = true ∧
      (t.status = .haltEnd ∨ t.status = .haltBudget ∨ t.status = .faultTape ∨ t.status = .faultBracket)

/-- R38: over any number of steps the output only grows, an earlier value being a prefix of a later one, and the input
cursor only advances. -/
def Obligations.OutputGrowsAndCursorAdvances : Prop :=
  ∀ (k : Nat) (s t : State), runSteps k s = .next t → s.out <+: t.out ∧ s.icur ≤ t.icur

/-- R211 (with R38 and R12): the output of a run is a prefix of what the same run gives, after as many steps, with a
larger budget. Where either run is over before so many steps, the steps left over answer the same state: the model's
choice (log 3). -/
def Obligations.LargerBudgetExtendsOutput : Prop :=
  ∀ (k n : Nat) (s t u : State), runSteps k s = .next t →
    runSteps k { s with bud := s.bud + n, budget := s.budget + n } = .next u → t.out <+: u.out

/-! ### Pointer moves -/

/-- R90, R91 (and R92, decision D12): `>` adds 1 to dp and `<` takes 1 from it, for every dp, in range or out of it, with no fault; nothing
else changes but the common tail. -/
def Obligations.PointerMovesNeverFault : Prop :=
  decodeChar 0x3E = .right ∧ decodeChar 0x3C = .left ∧
  ∀ s : State, 0 < s.bud →
    exec .right s = .next { s with dp := s.dp + 1, ip := s.ip + 1, bud := s.bud - 1 } ∧
    exec .left s = .next { s with dp := s.dp - 1, ip := s.ip + 1, bud := s.bud - 1 }

/-! ### Cell arithmetic -/

/-- R100, R102: `+` adds 1 modulo 256 to the cell at dp and changes no other byte of the tape and nothing else but the
common tail; with dp outside LOW..HIGH it takes TapeIndexOutOfRange before anything is written. -/
def Obligations.IncrementAddsOneModulo256 : Prop :=
  decodeChar 0x2B = .inc ∧
  (∀ (s : State) (v : Byte), 0 < s.bud → s.cell s.dp = some v →
    ∃ t w, exec .inc s = .next t ∧ t.cell s.dp = some w ∧ w.toNat = (v.toNat + 1) % 256 ∧
      SameCellsBut s.dp s t ∧ SameMemoryBut (phys s.dp) s t ∧
      t = { s with tape := t.tape, ip := s.ip + 1, bud := s.bud - 1 }) ∧
  (∀ s : State, s.dp < -25000 ∨ 24999 < s.dp → exec .inc s = .next { s with status := .faultTape })

/-- R101, R102: `-` takes 1 modulo 256 from the cell at dp, with the frame and the fault of `+`. -/
def Obligations.DecrementTakesOneModulo256 : Prop :=
  decodeChar 0x2D = .dec ∧
  (∀ (s : State) (v : Byte), 0 < s.bud → s.cell s.dp = some v →
    ∃ t w, exec .dec s = .next t ∧ t.cell s.dp = some w ∧ w.toNat = (v.toNat + 255) % 256 ∧
      SameCellsBut s.dp s t ∧ SameMemoryBut (phys s.dp) s t ∧
      t = { s with tape := t.tape, ip := s.ip + 1, bud := s.bud - 1 }) ∧
  (∀ s : State, s.dp < -25000 ∨ 24999 < s.dp → exec .dec s = .next { s with status := .faultTape })

/-- R103: increment then decrement, and decrement then increment, restore the cell, and with it every byte of the tape;
255 incremented is 0 and 0 decremented is 255. -/
def Obligations.IncrementDecrementInverse : Prop :=
  (∀ s : State, InTape s.dp →
    (∃ t u, exec .inc s = .next t ∧ exec .dec t = .next u ∧
      u.cell s.dp = s.cell s.dp ∧ ∀ a, Memory.read u.tape a = Memory.read s.tape a) ∧
    (∃ t u, exec .dec s = .next t ∧ exec .inc t = .next u ∧
      u.cell s.dp = s.cell s.dp ∧ ∀ a, Memory.read u.tape a = Memory.read s.tape a)) ∧
  increment 255 = 0 ∧ decrement 0 = 255

/-! ### Input and output -/

/-- R110, R113: `.` appends the cell at dp to the output, whatever its value, and changes nothing else but the common
tail; with dp outside LOW..HIGH it takes TapeIndexOutOfRange and nothing is appended. -/
def Obligations.OutputAppendsCell : Prop :=
  decodeChar 0x2E = .output ∧
  (∀ (s : State) (v : Byte), 0 < s.bud → s.cell s.dp = some v →
    exec .output s = .next { s with out := s.out ++ [v], ip := s.ip + 1, bud := s.bud - 1 }) ∧
  (∀ s : State, s.dp < -25000 ∨ 24999 < s.dp → exec .output s = .next { s with status := .faultTape })

/-- R112, with R54 and R111: `,` stores the next input byte in the cell at dp and advances the cursor by one; when the input is
exhausted it stores 0 and the cursor stays; no other byte of the tape and nothing else changes but the common tail; with dp
outside LOW..HIGH it takes TapeIndexOutOfRange and consumes no byte. That the cursor stays is decision D8, that the fault
comes before the input is touched decision D11. -/
def Obligations.InputStoresNextByteOrZero : Prop :=
  decodeChar 0x2C = .input ∧
  (∀ (s : State) (v : Byte), 0 < s.bud → InTape s.dp → s.inp[s.icur]? = some v →
    ∃ t, exec .input s = .next t ∧ t.cell s.dp = some v ∧ SameCellsBut s.dp s t ∧
      SameMemoryBut (phys s.dp) s t ∧
      t = { s with tape := t.tape, icur := s.icur + 1, ip := s.ip + 1, bud := s.bud - 1 }) ∧
  (∀ s : State, 0 < s.bud → InTape s.dp → s.inp.length ≤ s.icur →
    ∃ t, exec .input s = .next t ∧ t.cell s.dp = some 0 ∧ SameCellsBut s.dp s t ∧
      SameMemoryBut (phys s.dp) s t ∧
      t = { s with tape := t.tape, ip := s.ip + 1, bud := s.bud - 1 }) ∧
  (∀ s : State, s.dp < -25000 ∨ 24999 < s.dp → exec .input s = .next { s with status := .faultTape })

/-! ### Brackets and the jump engine -/

/-- R122: `ScanForward(i)` lands on q exactly when q is the least index after i at which the brackets since i + 1 close one
more than they open; and it leaves the text exactly when there is none. Where the scan begins is decision D14, how it fails
decision D15; the least-index form is the rule's own 'equivalent statement'. -/
def Obligations.ScanForwardFindsPartner : Prop :=
  ∀ (text : List Byte) (i : Nat), i < text.length →
    (∀ q, scanForward text i = .found q ↔ ForwardPartner text i q) ∧
    (scanForward text i = .unmatched ↔ NoForwardPartner text i) ∧
    (∀ q, scanForward text i = .found q → text[q]? = some 0x5D)

/-- R123: `ScanBackward(i)` lands on q exactly when q is the greatest index before i from which the brackets up to i - 1
open one more than they close; and it leaves the text exactly when there is none (decisions D14, D15; the greatest-index
form is the rule's own 'equivalent statement'). -/
def Obligations.ScanBackwardFindsPartner : Prop :=
  ∀ (text : List Byte) (i : Nat), i < text.length →
    (∀ q, scanBackward text i = .found q ↔ BackwardPartner text i q) ∧
    (scanBackward text i = .unmatched ↔ NoBackwardPartner text i) ∧
    (∀ q, scanBackward text i = .found q → text[q]? = some 0x5B)

/-- R128 (c): the two scans undo each other. -/
def Obligations.ScansUndoEachOther : Prop :=
  (∀ (text : List Byte) (i q : Nat), text[i]? = some 0x5B →
    scanForward text i = .found q → scanBackward text q = .found i) ∧
  (∀ (text : List Byte) (i q : Nat), text[i]? = some 0x5D →
    scanBackward text i = .found q → scanForward text q = .found i)

/-- R120, R124: `[` on a zero cell moves ip to one past the partner of the bracket at ip, or takes UnmatchedBracket when
there is none; on a non-zero cell it falls through and cannot fault; with dp outside LOW..HIGH it takes TapeIndexOutOfRange.
Nothing else changes but the common tail. -/
def Obligations.LoopOpenJumpsOnZero : Prop :=
  decodeChar 0x5B = .loopOpen ∧
  (∀ (s : State) (v : Byte), 0 < s.bud → s.cell s.dp = some v → v ≠ 0 →
    exec .loopOpen s = .next { s with ip := s.ip + 1, bud := s.bud - 1 }) ∧
  (∀ (s : State) (i q : Nat), Dispatching s → s.ip = i → s.cell s.dp = some 0 → ForwardPartner s.prog i q →
    exec .loopOpen s = .next { s with ip := (q : Int) + 1, bud := s.bud - 1 }) ∧
  (∀ (s : State) (i : Nat), Dispatching s → s.ip = i → s.cell s.dp = some 0 → NoForwardPartner s.prog i →
    exec .loopOpen s = .next { s with status := .faultBracket }) ∧
  (∀ s : State, s.dp < -25000 ∨ 24999 < s.dp → exec .loopOpen s = .next { s with status := .faultTape })

/-- R121, R124: `]` on a non-zero cell moves ip to one past the partner of the bracket at ip, or takes UnmatchedBracket when
there is none; on a zero cell it falls through and cannot fault; with dp outside LOW..HIGH it takes TapeIndexOutOfRange.
Nothing else changes but the common tail. -/
def Obligations.LoopCloseJumpsOnNonzero : Prop :=
  decodeChar 0x5D = .loopClose ∧
  (∀ s : State, 0 < s.bud → s.cell s.dp = some 0 →
    exec .loopClose s = .next { s with ip := s.ip + 1, bud := s.bud - 1 }) ∧
  (∀ (s : State) (v : Byte) (i q : Nat), Dispatching s → s.ip = i → s.cell s.dp = some v → v ≠ 0 →
    BackwardPartner s.prog i q →
    exec .loopClose s = .next { s with ip := (q : Int) + 1, bud := s.bud - 1 }) ∧
  (∀ (s : State) (v : Byte) (i : Nat), Dispatching s → s.ip = i → s.cell s.dp = some v → v ≠ 0 →
    NoBackwardPartner s.prog i →
    exec .loopClose s = .next { s with status := .faultBracket }) ∧
  (∀ s : State, s.dp < -25000 ∨ 24999 < s.dp → exec .loopClose s = .next { s with status := .faultTape })

/-! ### NOP -/

/-- R140, R74: every character of the six ranges is a NOP; it advances ip and costs a unit of budget, whatever its character
and wherever dp is, and does nothing else. -/
def Obligations.NopOnlyAdvances : Prop :=
  (∀ c : Byte, c.toNat ≤ 42 ∨ (47 ≤ c.toNat ∧ c.toNat ≤ 59) ∨ c.toNat = 61 ∨ (63 ≤ c.toNat ∧ c.toNat ≤ 90) ∨
    c.toNat = 92 ∨ 94 ≤ c.toNat → decodeChar c = .nop c) ∧
  (∀ (c : Byte) (s : State), 0 < s.bud → exec (.nop c) s = .next { s with ip := s.ip + 1, bud := s.bud - 1 })

/-! ### Faults -/

/-- R171: TapeIndexOutOfRange arises exactly when one of the six cell-accessing instructions meets a dp outside LOW..HIGH,
and leaves FAULT_TAPE. -/
def Obligations.TapeFaultExactlyOnAccess : Prop :=
  ∀ (i : Instr) (s t : State), s.status = .run → exec i s = .next t →
    (t.status = .faultTape ↔ accessesCell i = true ∧ (s.dp < -25000 ∨ 24999 < s.dp))

/-- R172: UnmatchedBracket arises exactly at a `[` on a zero cell and a `]` on a non-zero cell whose scan finds no partner,
and leaves FAULT_BRACKET. -/
def Obligations.BracketFaultExactlyOnScan : Prop :=
  ∀ (i : Instr) (s t : State) (n : Nat), Dispatching s → s.ip = n → exec i s = .next t →
    (t.status = .faultBracket ↔
      (i = .loopOpen ∧ s.cell s.dp = some 0 ∧ NoForwardPartner s.prog n) ∨
      (i = .loopClose ∧ (∃ v, s.cell s.dp = some v ∧ v ≠ 0) ∧ NoBackwardPartner s.prog n))

/-- R150, R178 (decision D11): an instruction that leaves RUN has faulted; it leaves one of the two fault statuses and
changes nothing else. The core makes no further step (R178): that the model's step then answers the same state is the
model's choice (log 3). -/
def Obligations.FaultChangesStatusOnly : Prop :=
  ∀ (i : Instr) (s t : State), s.status = .run → exec i s = .next t → t.status ≠ .run →
    (t.status = .faultTape ∨ t.status = .faultBracket) ∧ t = { s with status := t.status } ∧ step t = .next t

/-- R177: the order of events in one step: the end test, the budget test, the bounds check of dp, the scan (the last two:
decision D13). -/
def Obligations.EventsOfStepInOrder : Prop :=
  ∀ s t : State, s.status = .run → step s = .next t →
    (s.prog.length ≤ s.ip → t.status = .haltEnd) ∧
    (s.ip < s.prog.length → s.bud = 0 → t.status = .haltBudget) ∧
    (∀ (n : Nat) (c : Byte), s.ip = n → s.prog[n]? = some c → 0 < s.bud → accessesCell (decodeChar c) = true →
      ¬ InTape s.dp → t.status = .faultTape) ∧
    (t.status = .faultBracket → s.ip < s.prog.length ∧ 0 < s.bud ∧ InTape s.dp)

/-- R31, R173: the status codes; the two fault statuses are the cause codes 4 and 5 (decisions D9, D10). -/
def Obligations.StatusAndCauseCodes : Prop :=
  Status.code .idle = 0 ∧ Status.code .run = 1 ∧ Status.code .haltEnd = 2 ∧ Status.code .haltBudget = 3 ∧
  (Trap.status .tapeIndexOutOfRange).code = 4 ∧ (Trap.status .unmatchedBracket).code = 5 ∧
  Trap.status .tapeIndexOutOfRange = .faultTape ∧ Trap.status .unmatchedBracket = .faultBracket ∧
  (∀ a b : Status, a.code = b.code → a = b)

/-! ### Who writes what -/

/-- R20, the table's column 'written by', as far as it speaks of instructions: the tape is written by `+` `-` `,` only, dp by
`>` `<` only, icur by `,` only, out by `.` only. -/
def Obligations.OnlyNamedInstructionsWrite : Prop :=
  ∀ (i : Instr) (s t : State), exec i s = .next t →
    (t.tape ≠ s.tape → i = .inc ∨ i = .dec ∨ i = .input) ∧
    (t.dp ≠ s.dp → i = .right ∨ i = .left) ∧
    (t.icur ≠ s.icur → i = .input) ∧
    (t.out ≠ s.out → i = .output)

/-- R51, R52: no step changes a cell of the tape other than the cell at dp, by logical index and by physical index; and
with dp outside LOW..HIGH, where there is no cell at dp, no step changes the tape at all. -/
def Obligations.OnlyCellAtDpChanges : Prop :=
  ∀ s t : State, step s = .next t →
    SameCellsBut s.dp s t ∧ SameMemoryBut (phys s.dp) s t ∧ (¬ InTape s.dp → t.tape = s.tape)

/-- R22: LOW = -25000, HIGH = 24999, so -LOW = 25000 negative and HIGH + 1 = 25000 non-negative indices; logical index i is stored at physical
index i + 25000, which runs over 0..49999, all of it; index 0, where dp starts, is physical 25000. And R21, which the spec
derives from it: there is no aliasing, so that a write to one cell is read there and leaves every other cell. -/
def Obligations.LogicalIndicesAreDistinctCells : Prop :=
  (∀ i : Int, InTape i ↔ -25000 ≤ i ∧ i ≤ 24999) ∧
  (Config.low = -25000 ∧ Config.high = 24999 ∧ -Config.low = 25000 ∧ Config.high + 1 = 25000) ∧
  (∀ i : Int, InTape i → (phys i : Int) = i + 25000 ∧ phys i < Config.tapeSize) ∧
  (∀ a : Nat, a < 50000 → ∃ i : Int, InTape i ∧ phys i = a) ∧
  phys State.reset.dp = 25000 ∧ Config.tapeSize = 50000 ∧
  (∀ i j : Int, InTape i → InTape j → phys i = phys j → i = j) ∧
  (∀ (s : State) (i : Int) (v : Byte), InTape i → (s.setTape i v).cell i = some v ∧ SameCellsBut i s (s.setTape i v))

/-- R32, R64: no step changes the program text, the input or B. -/
def Obligations.LaunchParametersConstant : Prop :=
  ∀ (k : Nat) (s t : State), runSteps k s = .next t →
    t.prog = s.prog ∧ t.inp = s.inp ∧ t.budget = s.budget

/-- R50, R54: of the input stream a step reads the byte at the cursor only. With another input that has the same byte there,
or is exhausted there too, the step does the same. -/
def Obligations.StepReadsOnlyNextInputByte : Prop :=
  ∀ (s : State) (inp' : List Byte), inp'[s.icur]? = s.inp[s.icur]? →
    step { s with inp := inp' } = mapNext (fun t => { t with inp := inp' }) (step s)

/-- R183: no instruction can read the budget. With another budget left, an instruction does the same but for the budget. -/
def Obligations.InstructionsCannotSeeBudget : Prop :=
  ∀ (i : Instr) (s : State) (n : Nat),
    mapNext (fun t => { t with bud := 0 }) (exec i { s with bud := n }) =
      mapNext (fun t => { t with bud := 0 }) (exec i s)

/-- R50: the output stream is append only and never read. With other bytes already in it, a step appends the same. -/
def Obligations.OutputIsNeverRead : Prop :=
  ∀ (s : State) (front : List Byte),
    step { s with out := front ++ s.out } = mapNext (fun t => { t with out := front ++ t.out }) (step s)

/-! ### The host -/

/-- R41, R201: START with PLEN > 0, in every status but RUN, fault statuses included (R203), sets ip, dp, out, icur, bud
and status and takes the launch parameters; the tape is not touched (decisions D17, D19). -/
def Obligations.StartBeginsRun : Prop :=
  ∀ (s : State) (prog inp : List Byte) (budget : Nat),
    s.status ≠ .run → 0 < prog.length → prog.length ≤ 2147483647 → inp.length ≤ 2147483647 → budget ≤ 2147483647 →
    hostStart prog inp budget s = .next
      { tape := s.tape, dp := 0, ip := 0, icur := 0, out := [], bud := budget, status := .run,
        prog := prog, inp := inp, budget := budget }

/-- R202: START with PLEN = 0 empties `out` and sets HALT_END; ip, dp, icur, bud and the tape keep their values, and the
input and the budget given are ignored (decision D18). That the model also keeps the launch parameters is its choice (log 6). -/
def Obligations.StartWithEmptyProgram : Prop :=
  ∀ (s : State) (inp : List Byte) (budget : Nat),
    s.status ≠ .run → inp.length ≤ 2147483647 → budget ≤ 2147483647 →
    ∃ t, hostStart [] inp budget s = .next t ∧ t.out = [] ∧ t.status = .haltEnd ∧ t.ip = s.ip ∧ t.dp = s.dp ∧
      t.icur = s.icur ∧ t.bud = s.bud ∧ t.tape = s.tape

/-- R203, R10: START while RUN, and a launch above MAXCNT, have no move. That the model refuses them by these names is its
choice (log 8). -/
def Obligations.StartRefusedByName : Prop :=
  ∀ (s : State) (prog inp : List Byte) (budget : Nat),
    (s.status = .run → hostStart prog inp budget s = .refused .startWhileRunning) ∧
    (s.status ≠ .run → 2147483647 < prog.length ∨ 2147483647 < inp.length ∨ 2147483647 < budget →
      hostStart prog inp budget s = .refused .launchTooLarge)

/-- R186, R208, R210, R152: while RUN the host reads `status` only; otherwise it reads every element (decision D24); `out` is a result on
HALT_END and HALT_BUDGET only. The names of the refusals are the model's choice (log 9). -/
def Obligations.HostReads : Prop :=
  ∀ s : State,
    hostRead .status s = .ok (.code s.status.code) ∧
    (s.status = .run → ∀ r, r ≠ .status → hostRead r s = .error .readWhileRunning) ∧
    (s.status ≠ .run →
      hostRead .out s = .ok (.bytes s.out) ∧ hostRead .ip s = .ok (.int s.ip) ∧ hostRead .dp s = .ok (.int s.dp) ∧
      hostRead .icur s = .ok (.count s.icur) ∧ hostRead .bud s = .ok (.count s.bud) ∧
      (∀ i v, s.cell i = some v → hostRead (.cell i) s = .ok (.byte v)) ∧
      (∀ i : Int, i < -25000 ∨ 24999 < i → hostRead (.cell i) s = .error .noSuchCell)) ∧
    (∀ bs, runResult s = some bs ↔ (s.status = .haltEnd ∨ s.status = .haltBudget) ∧ bs = s.out)
end

