-- ==== Sys2Proof/Laws/Decode.lean ====
section
/-! SUPPORT. The small lemmas of the decoder and the encoder, character by character. -/

namespace Sys2Proof.Laws

/-- A character is decoded to a kind whose one character it is (R72). -/
@[simp] theorem encodeChar_decodeChar (c : Byte) : encodeChar (decodeChar c) = c := by
  unfold decodeChar
  repeat' split
  all_goals (subst_vars; rfl)

/-- Whatever is decoded is well-formed: the decoder's eight values and the six ranges of R74 fit together. -/
theorem decodeChar_wf : ∀ c : Byte, (decodeChar c).wf = true := by decide

/-- Decoding is one-to-one, since the character can be read off the instruction. -/
theorem decodeChar_injective {c d : Byte} (h : decodeChar c = decodeChar d) : c = d := by
  rw [← encodeChar_decodeChar c, h, encodeChar_decodeChar]

theorem decodeChar_open : decodeChar 0x5B = .loopOpen := rfl
theorem decodeChar_close : decodeChar 0x5D = .loopClose := rfl

theorem decodeChar_eq_open {c : Byte} : decodeChar c = .loopOpen ↔ c = 0x5B :=
  ⟨fun h => decodeChar_injective h, fun h => h ▸ rfl⟩

theorem decodeChar_eq_close {c : Byte} : decodeChar c = .loopClose ↔ c = 0x5D :=
  ⟨fun h => decodeChar_injective h, fun h => h ▸ rfl⟩

/-- The NOP's character is in the NOP space, and a character of the NOP space decodes to that NOP (R74). -/
theorem decodeChar_nop : ∀ c : Byte, inNopSpace c = true → decodeChar c = .nop c := by decide

@[simp] theorem decode_nil : decode [] = .error .noCharacter := rfl
@[simp] theorem decode_cons (c : Byte) (rest : List Byte) : decode (c :: rest) = .ok (decodeChar c, rest) := rfl

@[simp] theorem decodeText_nil : decodeText [] = [] := rfl
@[simp] theorem decodeText_cons (c : Byte) (rest : List Byte) :
    decodeText (c :: rest) = decodeChar c :: decodeText rest := rfl

@[simp] theorem encodeText_nil : encodeText [] = [] := rfl
@[simp] theorem encodeText_cons (i : Instr) (is : List Instr) :
    encodeText (i :: is) = encodeChar i :: encodeText is := rfl

end Sys2Proof.Laws
end

