-- ==== Sys2Proof/Laws/Memory.lean ====
section
/-! SUPPORT. The laws of the tape as a list of cells: a read after a write, and the canonical form that every operation
keeps. None of the read laws needs the canonical form. -/

namespace Sys2Proof.Laws

open Sys2Proof.Machine

@[simp] theorem read_nil (a : Nat) : Memory.read [] a = Config.unlistedCell := rfl

theorem read_cons (b : Nat) (x : Byte) (m : Memory) (a : Nat) :
    Memory.read ((b, x) :: m) a = if a = b then x else Memory.read m a := rfl

theorem insert_cons (b : Nat) (x : Byte) (m : Memory) (a : Nat) (v : Byte) :
    Memory.insert ((b, x) :: m) a v =
      if a < b then (a, v) :: (b, x) :: m else if a = b then (a, v) :: m else (b, x) :: Memory.insert m a v := rfl

theorem read_insert (m : Memory) (a : Nat) (v : Byte) (c : Nat) :
    Memory.read (Memory.insert m a v) c = if c = a then v else Memory.read m c := by
  induction m with
  | nil => simp [Memory.insert, Memory.read]
  | cons e m ih =>
    obtain ⟨b, x⟩ := e
    rw [insert_cons]
    split
    · simp [read_cons]
    · split
      · subst_vars
        by_cases hc : c = b <;> simp [read_cons, hc]
      · by_cases hc : c = b <;> by_cases ha : c = a <;> simp_all [read_cons]

theorem read_filter (m : Memory) (a c : Nat) :
    Memory.read (m.filter fun e => decide (e.1 ≠ a)) c = if c = a then Config.unlistedCell else Memory.read m c := by
  induction m with
  | nil => simp
  | cons e m ih =>
    obtain ⟨b, x⟩ := e
    by_cases hb : b = a
    · subst hb
      by_cases hc : c = b <;> simp_all [read_cons]
    · by_cases hc : c = b <;> by_cases ha : c = a <;> simp_all [read_cons]

/-- A read after a write: the value written at its index, every other index as before (R52). -/
theorem read_write (m : Memory) (a : Nat) (v : Byte) (c : Nat) :
    Memory.read (Memory.write m a v) c = if c = a then v else Memory.read m c := by
  unfold Memory.write
  split
  · subst_vars
    exact read_filter m a c
  · exact read_insert m a v c

@[simp] theorem read_write_self (m : Memory) (a : Nat) (v : Byte) : Memory.read (Memory.write m a v) a = v := by
  simp [read_write]

theorem read_write_other (m : Memory) {a c : Nat} (v : Byte) (h : c ≠ a) :
    Memory.read (Memory.write m a v) c = Memory.read m c := by
  simp [read_write, h]

theorem mem_insert {m : Memory} {a : Nat} {v : Byte} {e : Host.Cell} (h : e ∈ Memory.insert m a v) :
    e = (a, v) ∨ e ∈ m := by
  induction m with
  | nil => simpa [Memory.insert] using h
  | cons f m ih =>
    obtain ⟨b, x⟩ := f
    rw [insert_cons] at h
    split at h
    · simpa using h
    · split at h
      · rcases List.mem_cons.mp h with h | h
        · exact .inl h
        · exact .inr (List.mem_cons_of_mem _ h)
      · rcases List.mem_cons.mp h with h | h
        · exact .inr (by simp [h])
        · exact (ih h).imp_right (List.mem_cons_of_mem _)

theorem pairwise_insert {m : Memory} (a : Nat) (v : Byte) (h : m.Pairwise fun x y => x.1 < y.1) :
    (Memory.insert m a v).Pairwise fun x y => x.1 < y.1 := by
  induction m with
  | nil => simp [Memory.insert]
  | cons f m ih =>
    obtain ⟨b, x⟩ := f
    obtain ⟨hb, hm⟩ := List.pairwise_cons.mp h
    rw [insert_cons]
    split
    · next hab =>
      refine List.pairwise_cons.mpr ⟨fun e he => ?_, h⟩
      rcases List.mem_cons.mp he with rfl | he
      · exact hab
      · exact hab.trans (hb e he)
    · split
      · next hab =>
        subst hab
        exact List.pairwise_cons.mpr ⟨hb, hm⟩
      · next h1 h2 =>
        refine List.pairwise_cons.mpr ⟨fun e he => ?_, ih hm⟩
        rcases mem_insert he with rfl | he
        · show b < a
          omega
        · exact hb e he

/-- The empty tape is in canonical form. -/
theorem wf_nil : Memory.wf [] := by decide

/-- Every write inside the tape keeps the canonical form. -/
theorem wf_write {m : Memory} {a : Nat} (v : Byte) (h : Memory.wf m) (ha : a < Config.tapeSize) :
    Memory.wf (Memory.write m a v) := by
  unfold Memory.write
  split
  · exact ⟨h.1.filter _, fun e he => h.2 e (List.mem_filter.mp he).1⟩
  · next hv =>
    refine ⟨pairwise_insert a v h.1, fun e he => ?_⟩
    rcases mem_insert he with rfl | he
    · exact ⟨ha, hv⟩
    · exact h.2 e he

theorem read_of_mem {m : Memory} (h : m.Pairwise fun x y => x.1 < y.1) {e : Host.Cell} (he : e ∈ m) :
    Memory.read m e.1 = e.2 := by
  induction m with
  | nil => cases he
  | cons f m ih =>
    obtain ⟨b, x⟩ := f
    obtain ⟨hb, hm⟩ := List.pairwise_cons.mp h
    rcases List.mem_cons.mp he with rfl | he
    · simp [read_cons]
    · have hlt : b < e.1 := hb e he
      rw [read_cons, if_neg hlt.ne', ih hm he]

theorem mem_of_read {m : Memory} {a : Nat} (h : Memory.read m a ≠ Config.unlistedCell) :
    (a, Memory.read m a) ∈ m := by
  induction m with
  | nil => exact absurd rfl h
  | cons f m ih =>
    obtain ⟨b, x⟩ := f
    rw [read_cons] at h ⊢
    split
    · next hab => simp [hab]
    · next hab =>
      rw [if_neg hab] at h
      exact List.mem_cons_of_mem _ (ih h)

theorem mem_of_same_reads {m n : Memory} (hm : Memory.wf m) (h : ∀ a, Memory.read m a = Memory.read n a)
    {e : Host.Cell} (he : e ∈ m) : e ∈ n := by
  obtain ⟨a, v⟩ := e
  have hr : Memory.read m a = v := read_of_mem hm.1 he
  have hv : Memory.read n a ≠ Config.unlistedCell := by rw [← h a, hr]; exact (hm.2 _ he).2
  have hmem := mem_of_read hv
  rwa [← h a, hr] at hmem

/-- Tapes in canonical form that read alike are equal data. -/
theorem ext_of_wf {m n : Memory} (hm : Memory.wf m) (hn : Memory.wf n)
    (h : ∀ a, Memory.read m a = Memory.read n a) : m = n := by
  have hp : m.Perm n := by
    refine (List.perm_ext_iff_of_nodup ?_ ?_).mpr fun e =>
      ⟨mem_of_same_reads hm h, mem_of_same_reads hn fun a => (h a).symm⟩
    · exact hm.1.imp fun hlt heq => by subst heq; exact lt_irrefl _ hlt
    · exact hn.1.imp fun hlt heq => by subst heq; exact lt_irrefl _ hlt
  exact hp.eq_of_pairwise (fun x y _ _ h1 h2 => absurd h1 (by omega)) hm.1 hn.1

/-- The physical index of a logical index in range is inside the tape (R22). -/
theorem phys_lt {i : Int} (h : InTape i) : phys i < Config.tapeSize := by
  simp only [InTape, Config.low, Config.high, phys, Config.bias, Config.tapeSize] at *
  omega

/-- Two logical indices in range are two cells (R21). -/
theorem phys_inj {i j : Int} (hi : InTape i) (hj : InTape j) (h : phys i = phys j) : i = j := by
  simp only [InTape, Config.low, Config.high, phys, Config.bias] at *
  omega

end Sys2Proof.Laws
end

