-- ==== Sys2Proof/Laws/State.lean ====
section
/-! SUPPORT. One lemma per field per named update of the state, so that no proof unfolds a record update. -/

namespace Sys2Proof.Laws

open Sys2Proof.Machine

/-! ### `State.moveDp` -/

@[simp] theorem moveDp_tape (s : State) (d : Int) : (s.moveDp d).tape = s.tape := rfl
@[simp] theorem moveDp_dp (s : State) (d : Int) : (s.moveDp d).dp = s.dp + d := rfl
@[simp] theorem moveDp_ip (s : State) (d : Int) : (s.moveDp d).ip = s.ip := rfl
@[simp] theorem moveDp_icur (s : State) (d : Int) : (s.moveDp d).icur = s.icur := rfl
@[simp] theorem moveDp_out (s : State) (d : Int) : (s.moveDp d).out = s.out := rfl
@[simp] theorem moveDp_bud (s : State) (d : Int) : (s.moveDp d).bud = s.bud := rfl
@[simp] theorem moveDp_status (s : State) (d : Int) : (s.moveDp d).status = s.status := rfl
@[simp] theorem moveDp_prog (s : State) (d : Int) : (s.moveDp d).prog = s.prog := rfl
@[simp] theorem moveDp_inp (s : State) (d : Int) : (s.moveDp d).inp = s.inp := rfl
@[simp] theorem moveDp_budget (s : State) (d : Int) : (s.moveDp d).budget = s.budget := rfl

/-! ### `State.setIp` -/

@[simp] theorem setIp_tape (s : State) (q : Int) : (s.setIp q).tape = s.tape := rfl
@[simp] theorem setIp_dp (s : State) (q : Int) : (s.setIp q).dp = s.dp := rfl
@[simp] theorem setIp_ip (s : State) (q : Int) : (s.setIp q).ip = q := rfl
@[simp] theorem setIp_icur (s : State) (q : Int) : (s.setIp q).icur = s.icur := rfl
@[simp] theorem setIp_out (s : State) (q : Int) : (s.setIp q).out = s.out := rfl
@[simp] theorem setIp_bud (s : State) (q : Int) : (s.setIp q).bud = s.bud := rfl
@[simp] theorem setIp_status (s : State) (q : Int) : (s.setIp q).status = s.status := rfl
@[simp] theorem setIp_prog (s : State) (q : Int) : (s.setIp q).prog = s.prog := rfl
@[simp] theorem setIp_inp (s : State) (q : Int) : (s.setIp q).inp = s.inp := rfl
@[simp] theorem setIp_budget (s : State) (q : Int) : (s.setIp q).budget = s.budget := rfl

/-! ### `State.setStatus` -/

@[simp] theorem setStatus_tape (s : State) (v : Status) : (s.setStatus v).tape = s.tape := rfl
@[simp] theorem setStatus_dp (s : State) (v : Status) : (s.setStatus v).dp = s.dp := rfl
@[simp] theorem setStatus_ip (s : State) (v : Status) : (s.setStatus v).ip = s.ip := rfl
@[simp] theorem setStatus_icur (s : State) (v : Status) : (s.setStatus v).icur = s.icur := rfl
@[simp] theorem setStatus_out (s : State) (v : Status) : (s.setStatus v).out = s.out := rfl
@[simp] theorem setStatus_bud (s : State) (v : Status) : (s.setStatus v).bud = s.bud := rfl
@[simp] theorem setStatus_status (s : State) (v : Status) : (s.setStatus v).status = v := rfl
@[simp] theorem setStatus_prog (s : State) (v : Status) : (s.setStatus v).prog = s.prog := rfl
@[simp] theorem setStatus_inp (s : State) (v : Status) : (s.setStatus v).inp = s.inp := rfl
@[simp] theorem setStatus_budget (s : State) (v : Status) : (s.setStatus v).budget = s.budget := rfl

/-! ### `State.outAppend` -/

@[simp] theorem outAppend_tape (s : State) (v : Byte) : (s.outAppend v).tape = s.tape := rfl
@[simp] theorem outAppend_dp (s : State) (v : Byte) : (s.outAppend v).dp = s.dp := rfl
@[simp] theorem outAppend_ip (s : State) (v : Byte) : (s.outAppend v).ip = s.ip := rfl
@[simp] theorem outAppend_icur (s : State) (v : Byte) : (s.outAppend v).icur = s.icur := rfl
@[simp] theorem outAppend_out (s : State) (v : Byte) : (s.outAppend v).out = s.out ++ [v] := rfl
@[simp] theorem outAppend_bud (s : State) (v : Byte) : (s.outAppend v).bud = s.bud := rfl
@[simp] theorem outAppend_status (s : State) (v : Byte) : (s.outAppend v).status = s.status := rfl
@[simp] theorem outAppend_prog (s : State) (v : Byte) : (s.outAppend v).prog = s.prog := rfl
@[simp] theorem outAppend_inp (s : State) (v : Byte) : (s.outAppend v).inp = s.inp := rfl
@[simp] theorem outAppend_budget (s : State) (v : Byte) : (s.outAppend v).budget = s.budget := rfl

/-! ### `State.setTape` -/

@[simp] theorem setTape_tape (s : State) (i : Int) (v : Byte) : (s.setTape i v).tape = Memory.write s.tape (phys i) v := rfl
@[simp] theorem setTape_dp (s : State) (i : Int) (v : Byte) : (s.setTape i v).dp = s.dp := rfl
@[simp] theorem setTape_ip (s : State) (i : Int) (v : Byte) : (s.setTape i v).ip = s.ip := rfl
@[simp] theorem setTape_icur (s : State) (i : Int) (v : Byte) : (s.setTape i v).icur = s.icur := rfl
@[simp] theorem setTape_out (s : State) (i : Int) (v : Byte) : (s.setTape i v).out = s.out := rfl
@[simp] theorem setTape_bud (s : State) (i : Int) (v : Byte) : (s.setTape i v).bud = s.bud := rfl
@[simp] theorem setTape_status (s : State) (i : Int) (v : Byte) : (s.setTape i v).status = s.status := rfl
@[simp] theorem setTape_prog (s : State) (i : Int) (v : Byte) : (s.setTape i v).prog = s.prog := rfl
@[simp] theorem setTape_inp (s : State) (i : Int) (v : Byte) : (s.setTape i v).inp = s.inp := rfl
@[simp] theorem setTape_budget (s : State) (i : Int) (v : Byte) : (s.setTape i v).budget = s.budget := rfl

/-! ### `State.retire` -/

@[simp] theorem retire_tape (s : State) : s.retire.tape = s.tape := rfl
@[simp] theorem retire_dp (s : State) : s.retire.dp = s.dp := rfl
@[simp] theorem retire_ip (s : State) : s.retire.ip = s.ip + 1 := rfl
@[simp] theorem retire_icur (s : State) : s.retire.icur = s.icur := rfl
@[simp] theorem retire_out (s : State) : s.retire.out = s.out := rfl
@[simp] theorem retire_bud (s : State) : s.retire.bud = s.bud - 1 := rfl
@[simp] theorem retire_status (s : State) : s.retire.status = s.status := rfl
@[simp] theorem retire_prog (s : State) : s.retire.prog = s.prog := rfl
@[simp] theorem retire_inp (s : State) : s.retire.inp = s.inp := rfl
@[simp] theorem retire_budget (s : State) : s.retire.budget = s.budget := rfl

/-! ### `State.takeFault` -/

@[simp] theorem takeFault_tape (s : State) (e : Trap) : (s.takeFault e).tape = s.tape := rfl
@[simp] theorem takeFault_dp (s : State) (e : Trap) : (s.takeFault e).dp = s.dp := rfl
@[simp] theorem takeFault_ip (s : State) (e : Trap) : (s.takeFault e).ip = s.ip := rfl
@[simp] theorem takeFault_icur (s : State) (e : Trap) : (s.takeFault e).icur = s.icur := rfl
@[simp] theorem takeFault_out (s : State) (e : Trap) : (s.takeFault e).out = s.out := rfl
@[simp] theorem takeFault_bud (s : State) (e : Trap) : (s.takeFault e).bud = s.bud := rfl
@[simp] theorem takeFault_status (s : State) (e : Trap) : (s.takeFault e).status = e.status := rfl
@[simp] theorem takeFault_prog (s : State) (e : Trap) : (s.takeFault e).prog = s.prog := rfl
@[simp] theorem takeFault_inp (s : State) (e : Trap) : (s.takeFault e).inp = s.inp := rfl
@[simp] theorem takeFault_budget (s : State) (e : Trap) : (s.takeFault e).budget = s.budget := rfl

/-! ### `State.shortCircuit` -/

@[simp] theorem shortCircuit_tape (s : State) : s.shortCircuit.tape = s.tape := rfl
@[simp] theorem shortCircuit_dp (s : State) : s.shortCircuit.dp = s.dp := rfl
@[simp] theorem shortCircuit_ip (s : State) : s.shortCircuit.ip = s.ip := rfl
@[simp] theorem shortCircuit_icur (s : State) : s.shortCircuit.icur = s.icur := rfl
@[simp] theorem shortCircuit_out (s : State) : s.shortCircuit.out = [] := rfl
@[simp] theorem shortCircuit_bud (s : State) : s.shortCircuit.bud = s.bud := rfl
@[simp] theorem shortCircuit_status (s : State) : s.shortCircuit.status = .haltEnd := rfl
@[simp] theorem shortCircuit_prog (s : State) : s.shortCircuit.prog = s.prog := rfl
@[simp] theorem shortCircuit_inp (s : State) : s.shortCircuit.inp = s.inp := rfl
@[simp] theorem shortCircuit_budget (s : State) : s.shortCircuit.budget = s.budget := rfl

/-! ### `State.launch` -/

@[simp] theorem launch_tape (s : State) (p i : List Byte) (b : Nat) : (s.launch p i b).tape = s.tape := rfl
@[simp] theorem launch_dp (s : State) (p i : List Byte) (b : Nat) : (s.launch p i b).dp = 0 := rfl
@[simp] theorem launch_ip (s : State) (p i : List Byte) (b : Nat) : (s.launch p i b).ip = 0 := rfl
@[simp] theorem launch_icur (s : State) (p i : List Byte) (b : Nat) : (s.launch p i b).icur = 0 := rfl
@[simp] theorem launch_out (s : State) (p i : List Byte) (b : Nat) : (s.launch p i b).out = [] := rfl
@[simp] theorem launch_bud (s : State) (p i : List Byte) (b : Nat) : (s.launch p i b).bud = b := rfl
@[simp] theorem launch_status (s : State) (p i : List Byte) (b : Nat) : (s.launch p i b).status = .run := rfl
@[simp] theorem launch_prog (s : State) (p i : List Byte) (b : Nat) : (s.launch p i b).prog = p := rfl
@[simp] theorem launch_inp (s : State) (p i : List Byte) (b : Nat) : (s.launch p i b).inp = i := rfl
@[simp] theorem launch_budget (s : State) (p i : List Byte) (b : Nat) : (s.launch p i b).budget = b := rfl

/-! ### `State.withNextChar` -/

@[simp] theorem withNextChar_tape (s : State) (c : Byte) : (s.withNextChar c).tape = s.tape := rfl
@[simp] theorem withNextChar_dp (s : State) (c : Byte) : (s.withNextChar c).dp = s.dp := rfl
@[simp] theorem withNextChar_ip (s : State) (c : Byte) : (s.withNextChar c).ip = (s.ip.toNat : Int) := rfl
@[simp] theorem withNextChar_icur (s : State) (c : Byte) : (s.withNextChar c).icur = s.icur := rfl
@[simp] theorem withNextChar_out (s : State) (c : Byte) : (s.withNextChar c).out = s.out := rfl
@[simp] theorem withNextChar_bud (s : State) (c : Byte) : (s.withNextChar c).bud = max 1 s.bud := rfl
@[simp] theorem withNextChar_status (s : State) (c : Byte) : (s.withNextChar c).status = .run := rfl
@[simp] theorem withNextChar_prog (s : State) (c : Byte) : (s.withNextChar c).prog = placeChar s.prog s.ip.toNat c := rfl
@[simp] theorem withNextChar_inp (s : State) (c : Byte) : (s.withNextChar c).inp = s.inp := rfl
@[simp] theorem withNextChar_budget (s : State) (c : Byte) : (s.withNextChar c).budget = max 1 s.budget := rfl

/-! ### `State.inTake`: only the cursor of the state can change -/

@[simp] theorem inTake_tape (s : State) : s.inTake.2.tape = s.tape := by
  unfold State.inTake; split <;> rfl
@[simp] theorem inTake_dp (s : State) : s.inTake.2.dp = s.dp := by
  unfold State.inTake; split <;> rfl
@[simp] theorem inTake_ip (s : State) : s.inTake.2.ip = s.ip := by
  unfold State.inTake; split <;> rfl
@[simp] theorem inTake_out (s : State) : s.inTake.2.out = s.out := by
  unfold State.inTake; split <;> rfl
@[simp] theorem inTake_bud (s : State) : s.inTake.2.bud = s.bud := by
  unfold State.inTake; split <;> rfl
@[simp] theorem inTake_status (s : State) : s.inTake.2.status = s.status := by
  unfold State.inTake; split <;> rfl
@[simp] theorem inTake_prog (s : State) : s.inTake.2.prog = s.prog := by
  unfold State.inTake; split <;> rfl
@[simp] theorem inTake_inp (s : State) : s.inTake.2.inp = s.inp := by
  unfold State.inTake; split <;> rfl
@[simp] theorem inTake_budget (s : State) : s.inTake.2.budget = s.budget := by
  unfold State.inTake; split <;> rfl

/-- `InTake` with a byte left (R54). -/
theorem inTake_of_some {s : State} {v : Byte} (h : s.inp[s.icur]? = some v) :
    s.inTake = (v, { s with icur := s.icur + 1 }) := by
  simp [State.inTake, h]

/-- `InTake` at exhaustion (R54). -/
theorem inTake_of_none {s : State} (h : s.inp[s.icur]? = none) : s.inTake = (0, s) := by
  simp [State.inTake, h]

/-- The cursor never passes the end of the input and never goes back (R28). -/
theorem inTake_icur (s : State) :
    (s.icur < s.inp.length ∧ s.inTake.2.icur = s.icur + 1) ∨
      (s.inp.length ≤ s.icur ∧ s.inTake.2.icur = s.icur) := by
  cases h : s.inp[s.icur]? with
  | some v => exact .inl ⟨(List.getElem?_eq_some_iff.mp h).1, by simp [inTake_of_some h]⟩
  | none => exact .inr ⟨List.getElem?_eq_none_iff.mp h, by simp [inTake_of_none h]⟩

/-! ### Reset -/

@[simp] theorem reset_tape : State.reset.tape = [] := rfl
@[simp] theorem reset_dp : State.reset.dp = 0 := rfl
@[simp] theorem reset_ip : State.reset.ip = 0 := rfl
@[simp] theorem reset_icur : State.reset.icur = 0 := rfl
@[simp] theorem reset_out : State.reset.out = [] := rfl
@[simp] theorem reset_bud : State.reset.bud = 0 := rfl
@[simp] theorem reset_status : State.reset.status = .idle := rfl
@[simp] theorem reset_prog : State.reset.prog = [] := rfl
@[simp] theorem reset_inp : State.reset.inp = [] := rfl
@[simp] theorem reset_budget : State.reset.budget = 0 := rfl

end Sys2Proof.Laws
end

