-- ==== Sys2Proof/Laws/Ops.lean ====
section
/-! SUPPORT. What each shared operation can do, said once. -/

namespace Sys2Proof.Laws

open Sys2Proof.Machine

theorem complete_eq (s : State) : complete s = .next s.retire := rfl

theorem raise_eq (e : Trap) (s : State) : raise e s = .next (s.takeFault e) := rfl

/-- The bounds check passes exactly inside the tape, and else takes TapeIndexOutOfRange (R52). -/
theorem checkTape_eq (i : Int) (s : State) (k : Result) :
    checkTape i s k = if InTape i then k else .next (s.takeFault .tapeIndexOutOfRange) := rfl

/-- A cell read inside the tape goes on with the cell, and else takes TapeIndexOutOfRange (R52). -/
theorem memRead_eq (i : Int) (s : State) (k : Byte → Result) :
    memRead i s k = if InTape i then k (s.tapeAt i) else .next (s.takeFault .tapeIndexOutOfRange) := rfl

/-- A cell write inside the tape goes on with the cell written, and else takes TapeIndexOutOfRange (R52). -/
theorem memWrite_eq (i : Int) (v : Byte) (s : State) (k : State → Result) :
    memWrite i v s k = if InTape i then k (s.setTape i v) else .next (s.takeFault .tapeIndexOutOfRange) := rfl

theorem readOperand_eq (s : State) (k : Byte → Result) :
    readOperand s k = if InTape s.dp then k (s.tapeAt s.dp) else .next (s.takeFault .tapeIndexOutOfRange) := rfl

theorem writeOperand_eq (v : Byte) (s : State) (k : State → Result) :
    writeOperand v s k =
      if InTape s.dp then k (s.setTape s.dp v) else .next (s.takeFault .tapeIndexOutOfRange) := rfl

/-- A read-modify-write of the cell at dp completes inside the tape, and else takes TapeIndexOutOfRange with nothing
written (R58, R178). -/
theorem modifyOperand_eq (f : Byte → Byte) (s : State) :
    modifyOperand f s =
      if InTape s.dp then .next (s.setTape s.dp (f (s.tapeAt s.dp))).retire
      else .next (s.takeFault .tapeIndexOutOfRange) := by
  by_cases h : InTape s.dp <;> simp [modifyOperand, readOperand_eq, writeOperand_eq, complete_eq, h]

/-- There is a cell exactly inside the tape (R21). -/
theorem cell_eq_some {s : State} {i : Int} {v : Byte} : s.cell i = some v ↔ InTape i ∧ s.tapeAt i = v := by
  unfold State.cell
  split
  · next h => exact ⟨fun hv => ⟨h, by simpa using hv⟩, fun hv => by rw [hv.2]⟩
  · next h => exact ⟨fun hv => (nomatch hv), fun hv => absurd hv.1 h⟩

theorem tapeAt_setTape_self (s : State) (i : Int) (v : Byte) : (s.setTape i v).tapeAt i = v := by
  simp [State.tapeAt]

/-- A cell write leaves every other byte of the tape as it was (R52). -/
theorem read_setTape_other (s : State) {i : Int} {a : Nat} (v : Byte) (h : a ≠ phys i) :
    Memory.read (s.setTape i v).tape a = Memory.read s.tape a :=
  read_write_other s.tape v h

/-- A cell depends on the tape only. -/
theorem cell_congr {s t : State} (h : t.tape = s.tape) (i : Int) : t.cell i = s.cell i := by
  simp only [State.cell, State.tapeAt, h]

/-- A cell write inside the tape is read back at its logical index (R52). -/
theorem cell_setTape_self (s : State) {i : Int} (v : Byte) (h : InTape i) : (s.setTape i v).cell i = some v :=
  cell_eq_some.mpr ⟨h, tapeAt_setTape_self s i v⟩

/-- A cell write inside the tape leaves the cell at every other logical index as it was (R21, R52). -/
theorem cell_setTape_other (s : State) {i j : Int} (v : Byte) (hi : InTape i) (h : j ≠ i) :
    (s.setTape i v).cell j = s.cell j := by
  by_cases hj : InTape j
  · have hp : phys j ≠ phys i := fun he => h (phys_inj hj hi he)
    simp only [State.cell, if_pos hj, State.tapeAt, read_setTape_other s v hp]
  · simp only [State.cell, if_neg hj]

/-- A cell write inside the tape keeps the canonical form. -/
theorem wf_setTape {s : State} {i : Int} (v : Byte) (h : Memory.wf s.tape) (hi : InTape i) :
    Memory.wf (s.setTape i v).tape :=
  wf_write v h (phys_lt hi)

/-- `ProgRead` at an index of the text. -/
@[simp] theorem progRead_natCast (prog : List Byte) (n : Nat) : progRead prog n = prog[n]? := by
  simp [progRead]

/-- `ProgRead` gives a character exactly at the indices of the text (R53). -/
theorem progRead_eq_some {prog : List Byte} {i : Int} {c : Byte} (h : progRead prog i = some c) :
    0 ≤ i ∧ i < prog.length ∧ prog[i.toNat]? = some c := by
  unfold progRead at h
  split at h
  · cases h
  · have := (List.getElem?_eq_some_iff.mp h).1
    exact ⟨by omega, by omega, h⟩

/-- Inside the text `ProgRead` gives a character (R53). -/
theorem progRead_isSome {prog : List Byte} {i : Int} (h0 : 0 ≤ i) (h1 : i < prog.length) :
    ∃ c, progRead prog i = some c := by
  refine ⟨prog[i.toNat]'(by omega), ?_⟩
  rw [progRead, if_neg (by omega), List.getElem?_eq_getElem]

end Sys2Proof.Laws
end

