-- ==== Sys2Proof/Laws/JumpEngine.lean ====
section
/-! SUPPORT. The jump engine: how one character changes the nesting counter, and where a scan can land. -/

namespace Sys2Proof.Laws

open Sys2Proof.Machine

theorem nestForward_open (c : Nat) : nestForward c (decodeChar 0x5B) = c + 1 := rfl
theorem nestForward_close (c : Nat) : nestForward c (decodeChar 0x5D) = c - 1 := rfl
theorem nestBackward_open (c : Nat) : nestBackward c (decodeChar 0x5B) = c - 1 := rfl
theorem nestBackward_close (c : Nat) : nestBackward c (decodeChar 0x5D) = c + 1 := rfl

/-- A character that is no bracket leaves the counter of a forward scan (R80). -/
theorem nestForward_other {ch : Byte} (c : Nat) (ho : ch ≠ 0x5B) (hc : ch ≠ 0x5D) :
    nestForward c (decodeChar ch) = c := by
  have h1 := mt decodeChar_eq_open.mp ho
  have h2 := mt decodeChar_eq_close.mp hc
  cases h : decodeChar ch <;> simp_all [nestForward]

/-- A character that is no bracket leaves the counter of a backward scan (R80). -/
theorem nestBackward_other {ch : Byte} (c : Nat) (ho : ch ≠ 0x5B) (hc : ch ≠ 0x5D) :
    nestBackward c (decodeChar ch) = c := by
  have h1 := mt decodeChar_eq_open.mp ho
  have h2 := mt decodeChar_eq_close.mp hc
  cases h : decodeChar ch <;> simp_all [nestBackward]

/-- The forward counter reaches 0 only at a `]`, and from 1 (R122). -/
theorem nestForward_eq_zero {ch : Byte} {c : Nat} (hc : c ≠ 0) (h : nestForward c (decodeChar ch) = 0) :
    ch = 0x5D ∧ c = 1 := by
  by_cases ho : ch = 0x5B
  · subst ho
    rw [nestForward_open] at h
    omega
  · by_cases hcl : ch = 0x5D
    · subst hcl
      rw [nestForward_close] at h
      exact ⟨rfl, by omega⟩
    · exact absurd (nestForward_other c ho hcl ▸ h) hc

/-- The backward counter reaches 0 only at a `[`, and from 1 (R123). -/
theorem nestBackward_eq_zero {ch : Byte} {c : Nat} (hc : c ≠ 0) (h : nestBackward c (decodeChar ch) = 0) :
    ch = 0x5B ∧ c = 1 := by
  by_cases hcl : ch = 0x5D
  · subst hcl
    rw [nestBackward_close] at h
    omega
  · by_cases ho : ch = 0x5B
    · subst ho
      rw [nestBackward_open] at h
      exact ⟨rfl, by omega⟩
    · exact absurd (nestBackward_other c ho hcl ▸ h) hc

/-- A forward scan loop lands on a `]` among the characters it was given. -/
theorem scanForwardFrom_lands {rest : List Byte} {p c q : Nat} (hc : c ≠ 0)
    (h : scanForwardFrom rest p c = some q) : ∃ k, q = p + k ∧ rest[k]? = some 0x5D := by
  induction rest generalizing p c with
  | nil => cases h
  | cons ch rest ih =>
    unfold scanForwardFrom at h
    split at h
    · next hz => exact ⟨0, by simpa using h.symm, by simp [(nestForward_eq_zero hc hz).1]⟩
    · next hz =>
      obtain ⟨k, rfl, hk⟩ := ih hz h
      exact ⟨k + 1, by omega, by simpa using hk⟩

/-- A backward scan loop lands on a `[` among the characters it was given, counted from the far end. -/
theorem scanBackwardFrom_lands {rest : List Byte} {c q : Nat} (hc : c ≠ 0)
    (h : scanBackwardFrom rest c = some q) : q < rest.length ∧ rest.reverse[q]? = some 0x5B := by
  induction rest generalizing c with
  | nil => cases h
  | cons ch rest ih =>
    unfold scanBackwardFrom at h
    split at h
    · next hz =>
      obtain rfl : rest.length = q := by simpa using h
      simp [(nestBackward_eq_zero hc hz).1]
    · next hz =>
      obtain ⟨hlt, hq⟩ := ih hz h
      refine ⟨by simp; omega, ?_⟩
      rw [List.reverse_cons, List.getElem?_append_left (by simpa using hlt)]
      exact hq

theorem ofIndex_eq_found {r : Option Nat} {q : Nat} : ScanResult.ofIndex r = .found q ↔ r = some q := by
  cases r <;> simp [ScanResult.ofIndex]

theorem ofIndex_eq_unmatched {r : Option Nat} : ScanResult.ofIndex r = .unmatched ↔ r = none := by
  cases r <;> simp [ScanResult.ofIndex]

theorem ofIndex_ne_outside (r : Option Nat) : ScanResult.ofIndex r ≠ .outside := by
  cases r <;> simp [ScanResult.ofIndex]

/-- A forward scan lands on a `]` of the text, after where it began (R122). -/
theorem scanForward_lands {prog : List Byte} {i : Int} {q : Nat} (h : scanForward prog i = .found q) :
    i < q ∧ q < prog.length ∧ prog[q]? = some 0x5D := by
  unfold scanForward at h
  split at h
  · cases h
  · obtain ⟨k, rfl, hk⟩ := scanForwardFrom_lands one_ne_zero (ofIndex_eq_found.mp h)
    rw [List.getElem?_drop] at hk
    exact ⟨by omega, (List.getElem?_eq_some_iff.mp hk).1, hk⟩

/-- A backward scan lands on a `[` of the text, before where it began (R123). -/
theorem scanBackward_lands {prog : List Byte} {i : Int} {q : Nat} (h : scanBackward prog i = .found q) :
    (q : Int) < i ∧ q < prog.length ∧ prog[q]? = some 0x5B := by
  unfold scanBackward at h
  split at h
  · cases h
  · obtain ⟨hlt, hq⟩ := scanBackwardFrom_lands one_ne_zero (ofIndex_eq_found.mp h)
    rw [List.reverse_reverse] at hq
    simp only [List.length_reverse, List.length_take] at hlt
    rw [List.getElem?_take_of_lt (by omega)] at hq
    exact ⟨by omega, by omega, hq⟩

/-- From an index of the text neither scan reads outside it (R53). -/
theorem scanForward_ne_outside {prog : List Byte} {i : Int} (h : 0 ≤ i + 1) : scanForward prog i ≠ .outside := by
  rw [scanForward, if_neg (by omega)]
  exact ofIndex_ne_outside _

theorem scanBackward_ne_outside {prog : List Byte} {i : Int} (h : i ≤ prog.length) :
    scanBackward prog i ≠ .outside := by
  rw [scanBackward, if_neg (by omega)]
  exact ofIndex_ne_outside _

end Sys2Proof.Laws
end

