-- ==== Sys2Proof/Laws/Exec.lean ====
section
/-! SUPPORT. Everything an instruction can do, said once: `exec_next` is the inversion of `exec`. -/

namespace Sys2Proof.Laws

open Sys2Proof.Machine

/-- The own effect of each kind, before the common tail: from `s` to `u` (R147). -/
inductive Effect : Instr → State → State → Prop where
  | right (s : State) : Effect .right s (s.moveDp 1)
  | left (s : State) : Effect .left s (s.moveDp (-1))
  | inc {s : State} : InTape s.dp → Effect .inc s (s.setTape s.dp (increment (s.tapeAt s.dp)))
  | dec {s : State} : InTape s.dp → Effect .dec s (s.setTape s.dp (decrement (s.tapeAt s.dp)))
  | output {s : State} : InTape s.dp → Effect .output s (s.outAppend (s.tapeAt s.dp))
  | input {s : State} : InTape s.dp → Effect .input s (s.inTake.2.setTape s.dp s.inTake.1)
  | openFall {s : State} : InTape s.dp → s.tapeAt s.dp ≠ 0 → Effect .loopOpen s s
  | openJump {s : State} {q : Nat} : InTape s.dp → s.tapeAt s.dp = 0 → scanForward s.prog s.ip = .found q →
      Effect .loopOpen s (s.setIp q)
  | closeFall {s : State} : InTape s.dp → s.tapeAt s.dp = 0 → Effect .loopClose s s
  | closeJump {s : State} {q : Nat} : InTape s.dp → s.tapeAt s.dp ≠ 0 → scanBackward s.prog s.ip = .found q →
      Effect .loopClose s (s.setIp q)
  | nop (c : Byte) (s : State) : Effect (.nop c) s s

/-- When an instruction takes which fault (R171, R172). -/
inductive Raises : Instr → State → Trap → Prop where
  | inc {s : State} : ¬ InTape s.dp → Raises .inc s .tapeIndexOutOfRange
  | dec {s : State} : ¬ InTape s.dp → Raises .dec s .tapeIndexOutOfRange
  | output {s : State} : ¬ InTape s.dp → Raises .output s .tapeIndexOutOfRange
  | input {s : State} : ¬ InTape s.dp → Raises .input s .tapeIndexOutOfRange
  | loopOpen {s : State} : ¬ InTape s.dp → Raises .loopOpen s .tapeIndexOutOfRange
  | loopClose {s : State} : ¬ InTape s.dp → Raises .loopClose s .tapeIndexOutOfRange
  | openScan {s : State} : InTape s.dp → s.tapeAt s.dp = 0 → scanForward s.prog s.ip = .unmatched →
      Raises .loopOpen s .unmatchedBracket
  | closeScan {s : State} : InTape s.dp → s.tapeAt s.dp ≠ 0 → scanBackward s.prog s.ip = .unmatched →
      Raises .loopClose s .unmatchedBracket

theorem execOutput_eq (s : State) :
    execOutput s = if InTape s.dp then .next (s.outAppend (s.tapeAt s.dp)).retire
      else .next (s.takeFault .tapeIndexOutOfRange) := rfl

theorem execInput_eq (s : State) :
    execInput s = if InTape s.dp then .next (s.inTake.2.setTape s.dp s.inTake.1).retire
      else .next (s.takeFault .tapeIndexOutOfRange) := by
  simp only [execInput, checkTape_eq, writeOperand_eq, complete_eq, inTake_dp]
  split
  · rfl
  · rfl

theorem execLoopOpen_eq (s : State) :
    execLoopOpen s = if InTape s.dp then
        if s.tapeAt s.dp = 0 then jumpTo (scanForward s.prog s.ip) s else .next s.retire
      else .next (s.takeFault .tapeIndexOutOfRange) := by
  simp only [execLoopOpen, readOperand_eq, cellIsZero, beq_iff_eq, complete_eq]

theorem execLoopClose_eq (s : State) :
    execLoopClose s = if InTape s.dp then
        if s.tapeAt s.dp = 0 then .next s.retire else jumpTo (scanBackward s.prog s.ip) s
      else .next (s.takeFault .tapeIndexOutOfRange) := by
  simp only [execLoopClose, readOperand_eq, cellIsZero, beq_iff_eq, complete_eq]

/-- A jump that answers a next state has landed and advanced, or has taken UnmatchedBracket. -/
theorem jumpTo_next {r : ScanResult} {s t : State} (h : jumpTo r s = .next t) :
    (∃ q, r = .found q ∧ t = (s.setIp q).retire) ∨ (r = .unmatched ∧ t = s.takeFault .unmatchedBracket) := by
  cases r with
  | found q => exact .inl ⟨q, rfl, by simpa [jumpTo, complete_eq] using h.symm⟩
  | unmatched => exact .inr ⟨rfl, by simpa [jumpTo, raise_eq] using h.symm⟩
  | outside => cases h

/-- THE INVERSION OF `exec`: an instruction that answers a next state has had its own effect and then the common tail, or
it has taken a fault. -/
theorem exec_next {i : Instr} {s t : State} (h : exec i s = .next t) :
    (∃ u, Effect i s u ∧ t = u.retire) ∨ (∃ e, Raises i s e ∧ t = s.takeFault e) := by
  cases i with
  | right => exact .inl ⟨_, .right s, by simpa [exec, execRight, complete_eq] using h.symm⟩
  | left => exact .inl ⟨_, .left s, by simpa [exec, execLeft, complete_eq] using h.symm⟩
  | inc =>
    simp only [exec, execInc, modifyOperand_eq] at h
    split at h <;> cases h
    · exact .inl ⟨_, .inc ‹_›, rfl⟩
    · exact .inr ⟨_, .inc ‹_›, rfl⟩
  | dec =>
    simp only [exec, execDec, modifyOperand_eq] at h
    split at h <;> cases h
    · exact .inl ⟨_, .dec ‹_›, rfl⟩
    · exact .inr ⟨_, .dec ‹_›, rfl⟩
  | output =>
    simp only [exec, execOutput_eq] at h
    split at h <;> cases h
    · exact .inl ⟨_, .output ‹_›, rfl⟩
    · exact .inr ⟨_, .output ‹_›, rfl⟩
  | input =>
    simp only [exec, execInput_eq] at h
    split at h <;> cases h
    · exact .inl ⟨_, .input ‹_›, rfl⟩
    · exact .inr ⟨_, .input ‹_›, rfl⟩
  | loopOpen =>
    simp only [exec, execLoopOpen_eq] at h
    split at h
    · split at h
      · obtain ⟨q, hq, rfl⟩ | ⟨hq, rfl⟩ := jumpTo_next h
        · exact .inl ⟨_, .openJump ‹_› ‹_› hq, rfl⟩
        · exact .inr ⟨_, .openScan ‹_› ‹_› hq, rfl⟩
      · cases h
        exact .inl ⟨_, .openFall ‹_› ‹_›, rfl⟩
    · cases h
      exact .inr ⟨_, .loopOpen ‹_›, rfl⟩
  | loopClose =>
    simp only [exec, execLoopClose_eq] at h
    split at h
    · split at h
      · cases h
        exact .inl ⟨_, .closeFall ‹_› ‹_›, rfl⟩
      · obtain ⟨q, hq, rfl⟩ | ⟨hq, rfl⟩ := jumpTo_next h
        · exact .inl ⟨_, .closeJump ‹_› ‹_› hq, rfl⟩
        · exact .inr ⟨_, .closeScan ‹_› ‹_› hq, rfl⟩
    · cases h
      exact .inr ⟨_, .loopClose ‹_›, rfl⟩
  | nop c => exact .inl ⟨_, .nop c s, by simpa [exec, execNop, complete_eq] using h.symm⟩

/-- An own effect completes (the other direction of `exec_next`). -/
theorem exec_of_effect {i : Instr} {s u : State} (h : Effect i s u) : exec i s = .next u.retire := by
  cases h with
  | right => rfl
  | left => rfl
  | inc h => simp only [exec, execInc, modifyOperand_eq]; rw [if_pos h]
  | dec h => simp only [exec, execDec, modifyOperand_eq]; rw [if_pos h]
  | output h => simp only [exec, execOutput_eq]; rw [if_pos h]
  | input h => simp only [exec, execInput_eq]; rw [if_pos h]
  | openFall h hv => simp only [exec, execLoopOpen_eq]; rw [if_pos h, if_neg hv]
  | openJump h hv hq => simp only [exec, execLoopOpen_eq]; rw [if_pos h, if_pos hv, hq]; rfl
  | closeFall h hv => simp only [exec, execLoopClose_eq]; rw [if_pos h, if_pos hv]
  | closeJump h hv hq => simp only [exec, execLoopClose_eq]; rw [if_pos h, if_neg hv, hq]; rfl
  | nop => rfl

/-- A raised fault is taken (the other direction of `exec_next`). -/
theorem exec_of_raises {i : Instr} {s : State} {e : Trap} (h : Raises i s e) : exec i s = .next (s.takeFault e) := by
  cases h with
  | inc h => simp only [exec, execInc, modifyOperand_eq]; rw [if_neg h]
  | dec h => simp only [exec, execDec, modifyOperand_eq]; rw [if_neg h]
  | output h => simp only [exec, execOutput_eq]; rw [if_neg h]
  | input h => simp only [exec, execInput_eq]; rw [if_neg h]
  | loopOpen h => simp only [exec, execLoopOpen_eq]; rw [if_neg h]
  | loopClose h => simp only [exec, execLoopClose_eq]; rw [if_neg h]
  | openScan h hv hq => simp only [exec, execLoopOpen_eq]; rw [if_pos h, if_pos hv, hq]; rfl
  | closeScan h hv hq => simp only [exec, execLoopClose_eq]; rw [if_pos h, if_neg hv, hq]; rfl

/-- No own effect touches the budget, the status or the launch parameters: only the common tail and the faults do. -/
theorem Effect.keeps {i : Instr} {s u : State} (h : Effect i s u) :
    u.budget = s.budget ∧ u.bud = s.bud ∧ u.prog = s.prog ∧ u.inp = s.inp ∧ u.status = s.status := by
  cases h <;> simp

/-- A fault never leaves the core running (R178). -/
theorem trap_status_ne_run (e : Trap) : e.status ≠ .run := by cases e <;> simp [Trap.status]

end Sys2Proof.Laws
end

