-- ==== Sys2Proof/Laws/PerInstr.lean ====
section
/-! SUPPORT. The family DecodeEncode: the character of a well-formed instruction decodes to it, one lemma a constructor. -/

namespace Sys2Proof.Laws

/-- The instruction's own character decodes to it (R72, R73). -/
def DecodeEncode.Statement (i : Instr) : Prop := i.wf = true → decodeChar (encodeChar i) = i

theorem DecodeEncode.right : DecodeEncode.Statement .right := fun _ => rfl
theorem DecodeEncode.left : DecodeEncode.Statement .left := fun _ => rfl
theorem DecodeEncode.inc : DecodeEncode.Statement .inc := fun _ => rfl
theorem DecodeEncode.dec : DecodeEncode.Statement .dec := fun _ => rfl
theorem DecodeEncode.output : DecodeEncode.Statement .output := fun _ => rfl
theorem DecodeEncode.input : DecodeEncode.Statement .input := fun _ => rfl
theorem DecodeEncode.loopOpen : DecodeEncode.Statement .loopOpen := fun _ => rfl
theorem DecodeEncode.loopClose : DecodeEncode.Statement .loopClose := fun _ => rfl
theorem DecodeEncode.nop (c : Byte) : DecodeEncode.Statement (.nop c) := decodeChar_nop c

end Sys2Proof.Laws
end

