-- ==== Sys2Proof/Laws/Step.lean ====
section
/-! SUPPORT. Everything a step can do, said once, and that a placed character is the one the next step runs. -/

namespace Sys2Proof.Laws

open Sys2Proof.Machine

theorem atEnd_iff (s : State) : s.atEnd = true ↔ (s.prog.length : Int) ≤ s.ip := by
  simp [State.atEnd]

theorem spent_iff (s : State) : s.spent = true ↔ s.bud = 0 := by
  simp [State.spent]

/-- `step` in one equation (R145). -/
theorem step_eq (s : State) :
    step s = if s.status = .run then
        if (s.prog.length : Int) ≤ s.ip then .next (s.setStatus .haltEnd)
        else if s.bud = 0 then .next (s.setStatus .haltBudget)
        else dispatch exec s
      else .next s := by
  simp only [step, runLoop, rest, atEnd_iff, spent_iff]

/-- A dispatch with a character at ip executes it. -/
theorem dispatch_of_some {s : State} {c : Byte} (execute : Instr → State → Result)
    (h : progRead s.prog s.ip = some c) : dispatch execute s = execute (decodeChar c) s := by
  simp only [dispatch, h]

/-- A dispatch with none stops. -/
theorem dispatch_of_none {s : State} (execute : Instr → State → Result) (h : progRead s.prog s.ip = none) :
    dispatch execute s = .fault .progReadOutOfRange := by
  simp only [dispatch, h]

/-- THE INVERSION OF `step`: the core rests, halts in one of the two ways, or dispatches. -/
theorem step_next {s t : State} (h : step s = .next t) :
    (s.status ≠ .run ∧ t = s) ∨
    (s.status = .run ∧ s.prog.length ≤ s.ip ∧ t = s.setStatus .haltEnd) ∨
    (s.status = .run ∧ s.ip < s.prog.length ∧ s.bud = 0 ∧ t = s.setStatus .haltBudget) ∨
    (∃ c, s.status = .run ∧ s.ip < s.prog.length ∧ 0 < s.bud ∧ progRead s.prog s.ip = some c ∧
      exec (decodeChar c) s = .next t) := by
  rw [step_eq] at h
  split at h
  · next hrun =>
    split at h
    · next hend => exact .inr (.inl ⟨hrun, hend, by simpa using h.symm⟩)
    · next hend =>
      split at h
      · next hbud => exact .inr (.inr (.inl ⟨hrun, by omega, hbud, by simpa using h.symm⟩))
      · next hbud =>
        cases hc : progRead s.prog s.ip with
        | none => rw [dispatch_of_none exec hc] at h; cases h
        | some c =>
          rw [dispatch_of_some exec hc] at h
          exact .inr (.inr (.inr ⟨c, hrun, by omega, by omega, rfl, h⟩))
  · next hrun => exact .inl ⟨hrun, by simpa using h.symm⟩

/-- A character placed at `n` is the one at `n`. -/
theorem getElem?_placeChar (text : List Byte) (n : Nat) (c : Byte) : (placeChar text n c)[n]? = some c := by
  have hlen : (text.take n ++ List.replicate (n - text.length) 0).length = n := by
    simp only [List.length_append, List.length_take, List.length_replicate]
    omega
  rw [placeChar, List.getElem?_append_right (by omega), hlen]
  simp

/-- Placing a character leaves the text long enough to hold it, and no shorter than it was. -/
theorem length_placeChar (text : List Byte) (n : Nat) (c : Byte) :
    (placeChar text n c).length = max text.length (n + 1) := by
  simp only [placeChar, List.length_append, List.length_take, List.length_replicate, List.length_cons,
    List.length_drop]
  omega

/-- The placed table word is the instruction that the next step runs. -/
theorem step_withFetchWord (s : State) (nbits w : Nat) :
    step (s.withFetchWord nbits w) =
      exec (decodeChar (BitVec.ofNat 8 w)) (s.withFetchWord nbits w) := by
  have hget : progRead (s.withFetchWord nbits w).prog (s.withFetchWord nbits w).ip = some (BitVec.ofNat 8 w) :=
    (progRead_natCast _ _).trans (getElem?_placeChar _ _ _)
  have hend : ¬ ((s.withFetchWord nbits w).prog.length : Int) ≤ (s.withFetchWord nbits w).ip := by
    have := (progRead_eq_some hget).2.1
    omega
  have hbud : ¬ (s.withFetchWord nbits w).bud = 0 := by
    show ¬ max 1 s.bud = 0
    omega
  have hrun : (s.withFetchWord nbits w).status = .run := rfl
  rw [step_eq, if_pos hrun, if_neg hend, if_neg hbud, dispatch_of_some exec hget]

end Sys2Proof.Laws
end

