-- ==== Sys2Proof/Laws/Run.lean ====
section
/-! SUPPORT. Runs of many steps: `runSteps` is the host's `Core.run`, and what one step keeps, a run keeps. -/

namespace Sys2Proof.Laws

open Sys2Proof.Machine

@[simp] theorem runSteps_zero (s : State) : runSteps 0 s = .next s := rfl

theorem runSteps_succ_of_next {s t : State} (k : Nat) (h : step s = .next t) : runSteps (k + 1) s = runSteps k t := by
  simp only [runSteps, h]

/-- A run that answers a next state took a first step that did. -/
theorem runSteps_succ_next {k : Nat} {s t : State} (h : runSteps (k + 1) s = .next t) :
    ∃ u, step s = .next u ∧ runSteps k u = .next t := by
  simp only [runSteps] at h
  split at h
  · next u hu => exact ⟨u, hu, h⟩
  · cases h
  · cases h

/-- One more step of the host's run, when the machine's step answers a next state. -/
theorem core_run_succ_of_next {M : Host.Core} {k : Nat} {s t : M.State} (h : M.step s = .next t) :
    M.run (k + 1) s = M.run k t := by
  simp only [Host.Core.run, h]

theorem core_run_succ_of_fault {M : Host.Core} {k : Nat} {s : M.State} {r : M.Fault} (h : M.step s = .fault r) :
    M.run (k + 1) s = .fault r := by
  simp only [Host.Core.run, h]

theorem core_run_succ_of_refused {M : Host.Core} {k : Nat} {s : M.State} {r : M.Refusal} (h : M.step s = .refused r) :
    M.run (k + 1) s = .refused r := by
  simp only [Host.Core.run, h]

/-- The run of the host's interface is the same run. -/
theorem core_run_eq (k : Nat) (s : State) : Sys2Proof.core.run k s = runSteps k s := by
  induction k generalizing s with
  | zero => rfl
  | succ k ih =>
    cases h : step s with
    | next t => rw [runSteps_succ_of_next k h]; exact (core_run_succ_of_next (M := Sys2Proof.core) h).trans (ih t)
    | fault r => simp only [runSteps, h]; exact core_run_succ_of_fault (M := Sys2Proof.core) h
    | refused r => simp only [runSteps, h]; exact core_run_succ_of_refused (M := Sys2Proof.core) h

/-- The induction over a run, once: a relation that is reflexive, transitive and holds across every step holds across
every run. -/
theorem runSteps_induction {R : State → State → Prop} (hrefl : ∀ s, R s s)
    (htrans : ∀ s t u, R s t → R t u → R s u) (hstep : ∀ s t, step s = .next t → R s t)
    (k : Nat) {s t : State} (h : runSteps k s = .next t) : R s t := by
  induction k generalizing s with
  | zero => cases h; exact hrefl _
  | succ k ih =>
    obtain ⟨u, hu, hk⟩ := runSteps_succ_next h
    exact htrans _ _ _ (hstep _ _ hu) (ih hk)

/-- The induction over reachable states, once: what holds after RESET and is kept by every step and by START holds in
every reachable state. -/
theorem reachable_induction {P : State → Prop} (hreset : P State.reset)
    (hstep : ∀ s t, P s → step s = .next t → P t)
    (hstart : ∀ s t prog inp budget, P s → hostStart prog inp budget s = .next t → P t)
    {s : State} (h : Reachable s) : P s := by
  induction h with
  | reset => exact hreset
  | step _ hs ih => exact hstep _ _ ih hs
  | hostReset _ _ => exact hreset
  | hostStart _ hs ih => exact hstart _ _ _ _ _ ih hs

end Sys2Proof.Laws
end

