-- ==== Sys2Proof/Tests/Slice0.lean ====
section
/-! SUPPORT. The model's own tests. Expected values are those of spec/95_test_vectors.md (their ids are named) and of
the examples in the rules; the witnesses show that the hypotheses of the statements can be met, clause by clause. -/

namespace Sys2Proof.Tests

open Sys2Proof Sys2Proof.Machine

/-! ### Helpers -/

/-- The next state of a result, if there is one. -/
def nextOf : Result → Option State
  | .next s => some s
  | .fault _ => none
  | .refused _ => none

/-- The reason of a stop, if there is one. -/
def faultOf : Result → Option Fault
  | .next _ => none
  | .fault r => some r
  | .refused _ => none

/-- The reason of a refusal, if there is one. -/
def refusalOf : Result → Option Refusal
  | .next _ => none
  | .fault _ => none
  | .refused r => some r

/-- A running core with the given text, ip and dp, `v` in cell 0 and in the two end cells, `inp` as input, ten units left
of a budget of 60000, so that dp may be anywhere on the tape. -/
def probe (prog : List Byte) (ip dp : Int) (v : Byte) (inp : List Byte := []) : State :=
  { tape := Memory.write (Memory.write (Memory.write [] 0 v) 25000 v) 49999 v
    dp := dp, ip := ip, icur := 0, out := [], bud := 10, status := .run, prog := prog, inp := inp, budget := 60000 }

/-- The text `..[.[[]]..]...` of the document's jump example (S7). -/
def jumpText : List Byte :=
  [0x2E, 0x2E, 0x5B, 0x2E, 0x5B, 0x5B, 0x5D, 0x5D, 0x2E, 0x2E, 0x5D, 0x2E, 0x2E, 0x2E]

/-! ### Well-formedness: one check, an ill-formed term for each way to fail it, and its edges (R74) -/

theorem test_wf_refuses_tokens :
    (Instr.nop 0x3E).wf = false ∧ (Instr.nop 0x3C).wf = false ∧ (Instr.nop 0x2B).wf = false ∧
    (Instr.nop 0x2D).wf = false ∧ (Instr.nop 0x2E).wf = false ∧ (Instr.nop 0x2C).wf = false ∧
    (Instr.nop 0x5B).wf = false ∧ (Instr.nop 0x5D).wf = false := by decide

theorem test_wf_accepts_range_edges :
    (Instr.nop 0).wf = true ∧ (Instr.nop 42).wf = true ∧ (Instr.nop 47).wf = true ∧ (Instr.nop 59).wf = true ∧
    (Instr.nop 61).wf = true ∧ (Instr.nop 63).wf = true ∧ (Instr.nop 90).wf = true ∧ (Instr.nop 92).wf = true ∧
    (Instr.nop 94).wf = true ∧ (Instr.nop 255).wf = true := by decide

/-! ### Decoding: words written out from the table's "encoding" column (R73), and NOPs from R74 -/

theorem test_decode_right : decodeTableWord 8 0b00111110 = some .right := by decide
theorem test_decode_left : decodeTableWord 8 0b00111100 = some .left := by decide
theorem test_decode_inc : decodeTableWord 8 0b00101011 = some .inc := by decide
theorem test_decode_dec : decodeTableWord 8 0b00101101 = some .dec := by decide
theorem test_decode_output : decodeTableWord 8 0b00101110 = some .output := by decide
theorem test_decode_input : decodeTableWord 8 0b00101100 = some .input := by decide
theorem test_decode_loopOpen : decodeTableWord 8 0b01011011 = some .loopOpen := by decide
theorem test_decode_loopClose : decodeTableWord 8 0b01011101 = some .loopClose := by decide
theorem test_decode_nop :
    decodeTableWord 8 0b00000000 = some (.nop 0) ∧ decodeTableWord 8 0b01100001 = some (.nop 97) ∧
    decodeTableWord 8 0b11111111 = some (.nop 255) := by decide
/-- The document's idiom `,+[-.,+]`, bytes of P1. -/
theorem test_decode_text :
    decodeText [0x2C, 0x2B, 0x5B, 0x2D, 0x2E, 0x2C, 0x2B, 0x5D] =
      [.input, .inc, .loopOpen, .dec, .output, .input, .inc, .loopClose] := by decide
theorem test_decode_nothing : decode [] = .error .noCharacter := rfl

/-! ### Pointer moves -/

/-- V-P1, V-P3, V-P6: to the right, also out of range and back. -/
theorem test_right :
    (nextOf (step (probe [0x3E] 0 0 0))).map (fun t => (t.dp, t.ip, t.bud)) = some (1, 1, 9) ∧
    (nextOf (step (probe [0x3E] 0 24999 0))).map (fun t => (t.dp, t.status)) = some (25000, .run) ∧
    (nextOf (step (probe [0x3E] 0 (-25001) 0))).map (fun t => (t.dp, t.status)) = some (-25000, .run) := by decide

/-- V-P2, V-P4, V-P5: to the left, also out of range and back. -/
theorem test_left :
    (nextOf (step (probe [0x3C] 0 0 0))).map (fun t => (t.dp, t.ip, t.bud)) = some (-1, 1, 9) ∧
    (nextOf (step (probe [0x3C] 0 (-25000) 0))).map (fun t => (t.dp, t.status)) = some (-25001, .run) ∧
    (nextOf (step (probe [0x3C] 0 25000 0))).map (fun t => (t.dp, t.status)) = some (24999, .run) := by decide

/-! ### Cell arithmetic -/

/-- V-A2, V-A3, V-A9: 254 to 255, the wrap, and the lowest cell. -/
theorem test_inc :
    ((nextOf (step (probe [0x2B] 0 0 254))).map fun t => (t.cell 0, t.ip, t.bud)) = some (some 255, 1, 9) ∧
    ((nextOf (step (probe [0x2B] 0 0 255))).map fun t => t.cell 0) = some (some 0) ∧
    ((nextOf (step (probe [0x2B] 0 (-25000) 9))).map fun t => (t.cell (-25000), t.cell 0, t.cell 24999)) =
      some (some 10, some 9, some 9) := by decide

/-- V-A7: no access outside the tape, nothing changes but the status. -/
theorem test_inc_fault :
    nextOf (step (probe [0x2B] 0 25000 9)) = some { probe [0x2B] 0 25000 9 with status := .faultTape } := by decide

/-- V-A5, V-A6: the wrap, and no signed reading. -/
theorem test_dec :
    ((nextOf (step (probe [0x2D] 0 0 0))).map fun t => (t.cell 0, t.ip, t.bud)) = some (some 255, 1, 9) ∧
    ((nextOf (step (probe [0x2D] 0 0 128))).map fun t => t.cell 0) = some (some 127) := by decide

/-- V-A8. -/
theorem test_dec_fault :
    nextOf (step (probe [0x2D] 0 (-25001) 9)) = some { probe [0x2D] 0 (-25001) 9 with status := .faultTape } := by
  decide

/-! ### Input and output -/

/-- V-IO1, V-IO7: appended at the end, 0 as well. -/
theorem test_output :
    ((nextOf (step { probe [0x2E] 0 0 65 with out := [72] })).map fun t => (t.out, t.cell 0, t.ip, t.bud)) =
      some ([72, 65], some 65, 1, 9) ∧
    ((nextOf (step (probe [0x2E] 0 0 0))).map fun t => t.out) = some [0] := by decide

/-- V-IO8. -/
theorem test_output_fault :
    ((nextOf (step { probe [0x2E] 0 25000 9 with out := [1] })).map fun t => (t.out, t.status, t.ip)) =
      some ([1], .faultTape, 0) := by decide

/-- V-IO2, V-IO3, V-IO4, V-IO5: a byte, exhaustion, no input, a real 0 byte. -/
theorem test_input :
    ((nextOf (step { probe [0x2C] 0 0 9 [65, 66] with icur := 1 })).map fun t => (t.cell 0, t.icur)) =
      some (some 66, 2) ∧
    ((nextOf (step { probe [0x2C] 0 0 9 [65, 66] with icur := 2 })).map fun t => (t.cell 0, t.icur)) =
      some (some 0, 2) ∧
    ((nextOf (step (probe [0x2C] 0 0 9))).map fun t => (t.cell 0, t.icur)) = some (some 0, 0) ∧
    ((nextOf (step (probe [0x2C] 0 0 9 [0]))).map fun t => (t.cell 0, t.icur)) = some (some 0, 1) := by decide

/-- V-IO9: a faulting `,` takes no byte. -/
theorem test_input_fault :
    ((nextOf (step (probe [0x2C] 0 (-25001) 9 [9]))).map fun t => (t.icur, t.status, t.ip)) =
      some (0, .faultTape, 0) := by decide

/-! ### Brackets -/

/-- V-J1, V-J3, V-J5, V-J6: the document's example, the fall-through, the inner pairs. -/
theorem test_loopOpen :
    ((nextOf (step (probe jumpText 2 0 0))).map fun t => (t.ip, t.bud)) = some (11, 9) ∧
    ((nextOf (step (probe jumpText 2 0 7))).map fun t => t.ip) = some 3 ∧
    ((nextOf (step (probe jumpText 4 0 0))).map fun t => t.ip) = some 8 ∧
    ((nextOf (step (probe jumpText 5 0 0))).map fun t => t.ip) = some 7 := by decide

/-- V-J9, V-J14, V-J17, and V-J12's fall-through: when a `[` faults and when it does not. -/
theorem test_loopOpen_fault :
    nextOf (step (probe [0x5B] 0 0 0)) = some { probe [0x5B] 0 0 0 with status := .faultBracket } ∧
    ((nextOf (step (probe [0x5B, 0x5B, 0x5D] 0 0 0))).map fun t => t.status) = some .faultBracket ∧
    ((nextOf (step (probe [0x5B] 0 (-25001) 0))).map fun t => t.status) = some .faultTape ∧
    ((nextOf (step (probe [0x2B, 0x5B] 1 0 1))).map fun t => (t.status, t.ip)) = some (.run, 2) := by decide

/-- V-J2, V-J4, V-J7, V-J8: the symmetric case, the fall-through, `[]` looping on the `]`, the inner pair. -/
theorem test_loopClose :
    ((nextOf (step (probe jumpText 10 0 1))).map fun t => (t.ip, t.bud)) = some (3, 9) ∧
    ((nextOf (step (probe jumpText 10 0 0))).map fun t => t.ip) = some 11 ∧
    ((nextOf (step (probe jumpText 6 0 1))).map fun t => t.ip) = some 6 ∧
    ((nextOf (step (probe jumpText 7 0 1))).map fun t => t.ip) = some 5 := by decide

/-- V-J10 and V-J11: when a `]` faults and when it does not. -/
theorem test_loopClose_fault :
    nextOf (step (probe [0x2B, 0x5D] 1 0 1)) = some { probe [0x2B, 0x5D] 1 0 1 with status := .faultBracket } ∧
    ((nextOf (step (probe [0x5D] 0 0 0))).map fun t => (t.status, t.ip)) = some (.run, 1) := by decide

/-! ### NOP -/

/-- The example of R140, and V-N3: a NOP with dp out of range does not fault. -/
theorem test_nop :
    nextOf (step (probe [0x61, 0x2B] 0 0 0)) = some { probe [0x61, 0x2B] 0 0 0 with ip := 1, bud := 9 } ∧
    ((nextOf (step (probe [0x78] 0 (-25001) 0))).map fun t => (t.status, t.ip, t.dp)) =
      some (.run, 1, -25001) := by decide

/-! ### Run loop, host -/

/-- V-B1, V-B2, V-B3: no budget, the end and the budget at once, the budget before the end. -/
theorem test_stop_order :
    ((nextOf (step { probe [0x2B] 0 0 0 with bud := 0 })).map fun t => (t.status, t.ip)) = some (.haltBudget, 0) ∧
    ((nextOf (step { probe [0x2B] 1 0 1 with bud := 0 })).map fun t => (t.status, t.ip)) = some (.haltEnd, 1) ∧
    ((nextOf (step { probe [0x2B, 0x2B] 1 0 1 with bud := 0 })).map fun t => (t.status, t.ip)) =
      some (.haltBudget, 1) := by decide

/-- V-R3, V-R4: START keeps the tape; START with an empty program keeps everything but `out` and `status`. -/
theorem test_start :
    nextOf (hostStart [0x2E] [] 100 { probe [0x2B] 1 7 3 with status := .haltEnd }) =
      some { probe [0x2E] 0 0 3 with bud := 100, budget := 100 } ∧
    nextOf (hostStart [] [] 5 { probe [0x2E] 1 0 3 with status := .haltEnd, out := [3] }) =
      some { probe [0x2E] 1 0 3 with status := .haltEnd, out := [] } := by decide

/-- R203: no START while RUN. -/
theorem test_start_while_running :
    refusalOf (hostStart [0x2E] [] 100 (probe [0x2B] 0 0 0)) = some .startWhileRunning := by decide

/-- What is placed is what the next step runs, after reset and in the middle of a text. -/
theorem test_withFetchWord :
    ((nextOf (step (State.reset.withFetchWord 8 0x2B))).map fun t => (t.cell 0, t.ip, t.status)) =
      some (some 1, 1, .run) ∧
    (({ State.reset with ip := 2, prog := [0x3E] } : State).withFetchWord 8 0x3C).prog = [0x3E, 0, 0x3C] := by decide

/-! ### Witnesses: the hypotheses of the statements can be met -/

theorem probe_inv : (probe [0x2B, 0x3E] 1 0 1).Inv := by constructor <;> decide

/-- The lowest and the highest cell index. -/
theorem witness_ResetSetsEveryElement :
    ((-25000 : Int) ≤ -25000 ∧ (-25000 : Int) ≤ 24999) ∧ ((-25000 : Int) ≤ 24999 ∧ (24999 : Int) ≤ 24999) := by decide

theorem witness_StepKeepsInvariant :
    ∃ s t : State, s.Inv ∧ step s = .next t ∧ s ≠ t := ⟨_, _, probe_inv, rfl, by decide⟩

theorem witness_HostOperationsKeepInvariant :
    (∃ s t : State, s.Inv ∧ hostStart [0x2B] [7] 5 s = .next t) ∧
    (∃ s t : State, s.Inv ∧ hostStart [] [7] 5 s = .next t) :=
  ⟨⟨State.reset, _, by constructor <;> decide, rfl⟩, ⟨State.reset, _, by constructor <;> decide, rfl⟩⟩

theorem witness_StepAnswersNextUnderInvariant : ∃ s : State, s.Inv ∧ s.status = .run := ⟨_, probe_inv, rfl⟩

/-- The least distances outside the text at which the two brackets stop. -/
theorem witness_ExecStopsOnlyOutsideText :
    faultOf (exec .loopOpen (probe [0x5B] (-2) 0 0)) = some .progReadOutOfRange ∧
    faultOf (exec .loopOpen (probe [0x5B] (-1) 0 0)) = none ∧
    faultOf (exec .loopClose (probe [0x5D] 2 0 1)) = some .progReadOutOfRange ∧
    faultOf (exec .loopClose (probe [0x5D] 1 0 1)) = none := by decide

/-- A fault, an advance, and a jump either way. -/
theorem witness_IpStaysInText :
    Reachable State.reset ∧
    (∃ t, step (probe [0x5B] 0 0 0) = .next t ∧ t.ip = 0 ∧ t.status = .faultBracket) ∧
    (∃ t, step (probe [0x2B] 0 0 0) = .next t ∧ t.ip = 1 ∧ t.status = .run) ∧
    (∃ t, step (probe jumpText 2 0 0) = .next t ∧ t.ip = 10 + 1 ∧ t.status = .run ∧
      jumpText[2]? = some 0x5B ∧ scanForward jumpText 2 = .found 10) ∧
    (∃ t, step (probe jumpText 10 0 1) = .next t ∧ t.ip = 2 + 1 ∧ t.status = .run ∧
      jumpText[10]? = some 0x5D ∧ scanBackward jumpText 10 = .found 2) :=
  ⟨.reset, ⟨_, rfl, rfl, rfl⟩, ⟨_, rfl, rfl, rfl⟩, ⟨_, rfl, rfl, rfl, by decide⟩, ⟨_, rfl, rfl, rfl, by decide⟩⟩

theorem witness_ReachableCountersBounded :
    ∃ s t : State, Reachable s ∧ hostStart [0x2B] [] 2147483647 State.reset = .next s ∧ step s = .next t ∧ Reachable t :=
  have hs : hostStart [0x2B] [] 2147483647 State.reset =
      .next (State.reset.launch [0x2B] [] 2147483647) := rfl
  ⟨_, _, .hostStart .reset hs, hs, rfl, .step (.hostStart .reset hs) rfl⟩

theorem witness_DecodeEncodeAgree :
    (∀ i ∈ [Instr.right, .left, .inc, .dec, .output, .input, .loopOpen, .loopClose, .nop 0, .nop 42, .nop 255],
      i.wf = true) := by decide

theorem witness_StepRunsDecodedInstruction :
    (probe [0x2B, 0x3E] 1 0 1).status = .run ∧ (probe [0x2B, 0x3E] 1 0 1).ip = (1 : Nat) ∧
    (probe [0x2B, 0x3E] 1 0 1).prog[1]? = some 0x3E ∧ 0 < (probe [0x2B, 0x3E] 1 0 1).bud := by decide

/-- The end itself with budget and without, and the last character without budget. -/
theorem witness_StopTestsInOrder :
    ((probe [0x2B] 1 0 0).status = .run ∧ ((probe [0x2B] 1 0 0).prog.length : Int) ≤ (probe [0x2B] 1 0 0).ip) ∧
    ((({ probe [0x2B] 1 0 0 with bud := 0 } : State).prog.length : Int) ≤ ({ probe [0x2B] 1 0 0 with bud := 0 } : State).ip) ∧
    (({ probe [0x2B] 0 0 0 with bud := 0 } : State).ip < ({ probe [0x2B] 0 0 0 with bud := 0 } : State).prog.length ∧
      ({ probe [0x2B] 0 0 0 with bud := 0 } : State).bud = 0) := by decide

theorem witness_NoStepUnlessRunning : State.reset.status ≠ .run := by decide

/-- A completed instruction, a faulting one, and both halting steps. -/
theorem witness_EachInstructionCostsOne :
    (∃ t, exec .inc (probe [0x2B] 0 0 0) = .next t ∧ t.status = .run) ∧
    (∃ t, exec .inc (probe [0x2B] 0 25000 0) = .next t ∧ t.status ≠ .run) ∧
    (∃ t, step (probe [0x2B] 1 0 0) = .next t) ∧
    (∃ t, step { probe [0x2B] 0 0 0 with bud := 0 } = .next t) :=
  ⟨⟨_, rfl, rfl⟩, ⟨_, rfl, by decide⟩, ⟨_, rfl⟩, ⟨_, rfl⟩⟩

theorem witness_EveryRunEnds :
    (probe [0x2B, 0x3E] 1 0 1).Inv ∧ (probe [0x2B, 0x3E] 1 0 1).status = .run := ⟨probe_inv, rfl⟩

theorem witness_OutputGrowsAndCursorAdvances :
    ∃ t, runSteps 2 (probe [0x2C, 0x2E] 0 0 0 [7]) = .next t ∧ t.out = [7] ∧ t.icur = 1 := ⟨_, rfl, rfl, rfl⟩

/-- The smaller budget cuts the output short. -/
theorem witness_LargerBudgetExtendsOutput :
    ∃ t u, runSteps 2 { probe [0x2E, 0x2E] 0 0 65 with bud := 1 } = .next t ∧
      runSteps 2 { probe [0x2E, 0x2E] 0 0 65 with bud := 1 + 1, budget := 60000 + 1 } = .next u ∧
      t.out = [65] ∧ u.out = [65, 65] := ⟨_, _, rfl, rfl, rfl, rfl⟩

theorem witness_PointerMovesNeverFault : 0 < (probe [0x3E] 0 24999 0).bud := by decide

/-- The hypotheses of `+`, `-` and `.`: the lowest and the highest cell, and the first index beyond either. -/
theorem witness_cell_access :
    (0 < (probe [] 0 (-25000) 255).bud ∧ (probe [] 0 (-25000) 255).cell (-25000) = some 255) ∧
    (0 < (probe [] 0 24999 255).bud ∧ (probe [] 0 24999 255).cell 24999 = some 255) ∧
    (probe [] 0 (-25001) 255).dp < -25000 ∧ 24999 < (probe [] 0 25000 255).dp := by decide

theorem witness_IncrementAddsOneModulo256 :
    0 < (probe [0x2B] 0 24999 255).bud ∧ (probe [0x2B] 0 24999 255).cell 24999 = some 255 ∧
    24999 < (probe [0x2B] 0 25000 0).dp := by decide

theorem witness_DecrementTakesOneModulo256 :
    0 < (probe [0x2D] 0 (-25000) 0).bud ∧ (probe [0x2D] 0 (-25000) 0).cell (-25000) = some 0 ∧
    (probe [0x2D] 0 (-25001) 0).dp < -25000 := by decide

theorem witness_IncrementDecrementInverse : InTape (probe [] 0 (-25000) 0).dp ∧ InTape (probe [] 0 24999 0).dp := by
  decide

theorem witness_OutputAppendsCell :
    0 < (probe [0x2E] 0 24999 255).bud ∧ (probe [0x2E] 0 24999 255).cell 24999 = some 255 ∧
    24999 < (probe [0x2E] 0 25000 0).dp := by decide

/-- The last byte of the input, and the first position past it. -/
theorem witness_InputStoresNextByteOrZero :
    (0 < (probe [0x2C] 0 0 9 [65]).bud ∧ InTape (probe [0x2C] 0 0 9 [65]).dp ∧
      (probe [0x2C] 0 0 9 [65]).inp[(probe [0x2C] 0 0 9 [65]).icur]? = some 65) ∧
    (0 < (probe [0x2C] 0 0 9).bud ∧ InTape (probe [0x2C] 0 0 9).dp ∧
      (probe [0x2C] 0 0 9).inp.length ≤ (probe [0x2C] 0 0 9).icur) ∧
    (probe [0x2C] 0 (-25001) 9).dp < -25000 := by decide

/-- A partner and none. -/
theorem witness_ScanForwardFindsPartner :
    (2 < jumpText.length ∧ ForwardPartner jumpText 2 10 ∧ scanForward jumpText 2 = .found 10) ∧
    (0 < [(0x5B : Byte), 0x5B, 0x5D].length ∧ NoForwardPartner [0x5B, 0x5B, 0x5D] 0 ∧
      scanForward [0x5B, 0x5B, 0x5D] 0 = .unmatched) := by decide

theorem witness_ScanBackwardFindsPartner :
    (10 < jumpText.length ∧ BackwardPartner jumpText 10 2 ∧ scanBackward jumpText 10 = .found 2) ∧
    (1 < [(0x2B : Byte), 0x5D].length ∧ NoBackwardPartner [0x2B, 0x5D] 1 ∧
      scanBackward [0x2B, 0x5D] 1 = .unmatched) := by decide

theorem witness_ScansUndoEachOther :
    (jumpText[4]? = some 0x5B ∧ scanForward jumpText 4 = .found 7) ∧
    (jumpText[7]? = some 0x5D ∧ scanBackward jumpText 7 = .found 4) := by decide

theorem witness_LoopOpenJumpsOnZero :
    (0 < (probe jumpText 2 0 1).bud ∧ (probe jumpText 2 0 1).cell 0 = some 1 ∧ (1 : Byte) ≠ 0) ∧
    (Dispatching (probe [0x5B, 0x5D] 0 0 0) ∧ (probe [0x5B, 0x5D] 0 0 0).ip = (0 : Nat) ∧
      (probe [0x5B, 0x5D] 0 0 0).cell 0 = some 0 ∧ ForwardPartner [0x5B, 0x5D] 0 1) ∧
    (Dispatching (probe [0x5B] 0 0 0) ∧ (probe [0x5B] 0 0 0).cell 0 = some 0 ∧ NoForwardPartner [0x5B] 0) ∧
    24999 < (probe [0x5B] 0 25000 0).dp := by decide

theorem witness_LoopCloseJumpsOnNonzero :
    (0 < (probe jumpText 10 0 0).bud ∧ (probe jumpText 10 0 0).cell 0 = some 0) ∧
    (Dispatching (probe [0x5B, 0x5D] 1 0 1) ∧ (probe [0x5B, 0x5D] 1 0 1).ip = (1 : Nat) ∧
      (probe [0x5B, 0x5D] 1 0 1).cell 0 = some 1 ∧ (1 : Byte) ≠ 0 ∧ BackwardPartner [0x5B, 0x5D] 1 0) ∧
    (Dispatching (probe [0x5D] 0 0 1) ∧ (probe [0x5D] 0 0 1).cell 0 = some 1 ∧ NoBackwardPartner [0x5D] 0) ∧
    (probe [0x5D] 0 (-25001) 1).dp < -25000 := by decide

/-- Both edges of each range, and dp out of range. -/
theorem witness_NopOnlyAdvances :
    ((0 : Byte).toNat ≤ 42 ∧ (42 : Byte).toNat ≤ 42 ∧ 47 ≤ (47 : Byte).toNat ∧ (59 : Byte).toNat ≤ 59 ∧
      (61 : Byte).toNat = 61 ∧ 63 ≤ (63 : Byte).toNat ∧ (90 : Byte).toNat ≤ 90 ∧ (92 : Byte).toNat = 92 ∧
      94 ≤ (94 : Byte).toNat ∧ 94 ≤ (255 : Byte).toNat) ∧
    0 < (probe [0x61] 0 25000 0).bud := by decide

/-- At the first index beyond either end, and at the last one inside. -/
theorem witness_TapeFaultExactlyOnAccess :
    (∃ t, exec .output (probe [0x2E] 0 25000 0) = .next t ∧ t.status = .faultTape) ∧
    (∃ t, exec .output (probe [0x2E] 0 24999 0) = .next t ∧ t.status = .run) ∧
    (∃ t, exec .dec (probe [0x2D] 0 (-25001) 0) = .next t ∧ t.status = .faultTape) ∧
    (∃ t, exec .dec (probe [0x2D] 0 (-25000) 0) = .next t ∧ t.status = .run) :=
  ⟨⟨_, rfl, rfl⟩, ⟨_, rfl, rfl⟩, ⟨_, rfl, rfl⟩, ⟨_, rfl, rfl⟩⟩

theorem witness_BracketFaultExactlyOnScan :
    (Dispatching (probe [0x5B] 0 0 0) ∧ (probe [0x5B] 0 0 0).ip = (0 : Nat)) ∧
    (∃ t, exec .loopOpen (probe [0x5B] 0 0 0) = .next t ∧ t.status = .faultBracket) ∧
    (∃ t, exec .loopClose (probe [0x5D] 0 0 1) = .next t ∧ t.status = .faultBracket) ∧
    (∃ t, exec .loopClose (probe [0x5D] 0 0 0) = .next t ∧ t.status = .run) :=
  ⟨by decide, ⟨_, rfl, rfl⟩, ⟨_, rfl, rfl⟩, ⟨_, rfl, rfl⟩⟩

theorem witness_FaultChangesStatusOnly :
    (probe [0x5B] 0 0 0).status = .run ∧
    (∃ t, exec .loopOpen (probe [0x5B] 0 0 0) = .next t ∧ t.status ≠ .run) := ⟨rfl, ⟨_, rfl, by decide⟩⟩

/-- Each of the four events, the first three where a later one would apply too. -/
theorem witness_EventsOfStepInOrder :
    (∃ t, step { probe [0x2E] 1 25000 0 with bud := 0 } = .next t ∧ t.status = .haltEnd) ∧
    (∃ t, step { probe [0x2E] 0 25000 0 with bud := 0 } = .next t ∧ t.status = .haltBudget) ∧
    (∃ t, step (probe [0x5B] 0 25000 0) = .next t ∧ t.status = .faultTape ∧
      accessesCell (decodeChar 0x5B) = true ∧ ¬ InTape (probe [0x5B] 0 25000 0).dp) ∧
    (∃ t, step (probe [0x5B] 0 0 0) = .next t ∧ t.status = .faultBracket) :=
  ⟨⟨_, rfl, rfl⟩, ⟨_, rfl, rfl⟩, ⟨_, rfl, rfl, rfl, by decide⟩, ⟨_, rfl, rfl⟩⟩

/-- Each of the four elements is written by some instruction. -/
theorem witness_OnlyNamedInstructionsWrite :
    (∃ t, exec .inc (probe [] 0 0 0) = .next t ∧ t.tape ≠ (probe [] 0 0 0).tape) ∧
    (∃ t, exec .left (probe [] 0 0 0) = .next t ∧ t.dp ≠ (probe [] 0 0 0).dp) ∧
    (∃ t, exec .input (probe [] 0 0 0 [1]) = .next t ∧ t.icur ≠ (probe [] 0 0 0 [1]).icur) ∧
    (∃ t, exec .output (probe [] 0 0 0) = .next t ∧ t.out ≠ (probe [] 0 0 0).out) :=
  ⟨⟨_, rfl, by decide⟩, ⟨_, rfl, by decide⟩, ⟨_, rfl, by decide⟩, ⟨_, rfl, by decide⟩⟩

/-- A step that changes the cell at dp, the lowest one, and another cell; and a step with dp just below it, where the
lowest cell is another cell. -/
theorem witness_OnlyCellAtDpChanges :
    (∃ t, step (probe [0x2B] 0 (-25000) 255) = .next t ∧ t.cell (-25000) ≠ (probe [0x2B] 0 (-25000) 255).cell (-25000) ∧
      (24999 : Int) ≠ (probe [0x2B] 0 (-25000) 255).dp) ∧
    (∃ t, step (probe [0x2B] 0 (-25001) 255) = .next t ∧ ¬ InTape (probe [0x2B] 0 (-25001) 255).dp ∧
      phys (-25001) = phys (-25000) ∧ (-25000 : Int) ≠ (probe [0x2B] 0 (-25001) 255).dp) :=
  ⟨⟨_, rfl, by decide⟩, ⟨_, rfl, by decide⟩⟩

/-- Both ends of the tape, logical and physical. -/
theorem witness_LogicalIndicesAreDistinctCells :
    (InTape (-25000) ∧ phys (-25000) = 0) ∧ (InTape 24999 ∧ phys 24999 = 49999) ∧ ¬ InTape (-25001) ∧ ¬ InTape 25000 ∧
    (0 < 50000 ∧ 49999 < 50000) := by decide

theorem witness_LaunchParametersConstant :
    ∃ t, runSteps 2 (probe [0x2B, 0x2E] 0 0 0 [1]) = .next t ∧ t ≠ probe [0x2B, 0x2E] 0 0 0 [1] := ⟨_, rfl, by decide⟩

/-- Another input with the same byte at the cursor, and another that is exhausted there too. -/
theorem witness_StepReadsOnlyNextInputByte :
    ([1, 65, 3] : List Byte)[({ probe [0x2C] 0 0 0 [2, 65] with icur := 1 } : State).icur]? =
      ({ probe [0x2C] 0 0 0 [2, 65] with icur := 1 } : State).inp[1]? ∧
    ([] : List Byte)[({ probe [0x2C] 0 0 0 [2] with icur := 1 } : State).icur]? =
      ({ probe [0x2C] 0 0 0 [2] with icur := 1 } : State).inp[1]? := by decide

/-- After a fault, with the largest budget. -/
theorem witness_StartBeginsRun :
    ({ probe [0x5B] 0 0 0 with status := .faultBracket } : State).status ≠ .run ∧
    0 < [(0x2B : Byte)].length ∧ [(0x2B : Byte)].length ≤ 2147483647 ∧ ([] : List Byte).length ≤ 2147483647 ∧
    2147483647 ≤ 2147483647 := by decide

theorem witness_StartWithEmptyProgram :
    State.reset.status ≠ .run ∧ [(7 : Byte)].length ≤ 2147483647 ∧ 2147483647 ≤ 2147483647 := by decide

/-- A budget of MAXCNT is taken, one more is not. -/
theorem witness_StartRefusedByName :
    (probe [0x2B] 0 0 0).status = .run ∧ State.reset.status ≠ .run ∧ 2147483647 < 2147483648 ∧
    refusalOf (hostStart [0x2B] [] 2147483648 State.reset) = some .launchTooLarge ∧
    refusalOf (hostStart [0x2B] [] 2147483647 State.reset) = none := by decide

theorem witness_HostReads :
    ((probe [0x2B] 0 0 0).status = .run ∧ HostRead.out ≠ .status) ∧
    (State.reset.status ≠ .run ∧ State.reset.cell 24999 = some 0 ∧ State.reset.cell (-25000) = some 0) ∧
    (24999 < (25000 : Int) ∧ (-25001 : Int) < -25000) := by decide

end Sys2Proof.Tests
end

/-! What an own effect does to each element of the state, that RESET, START and every step keep `State.Inv`, and the
bounds of R37 read off it. -/

namespace Sys2Proof.Proofs

open Sys2Proof.Machine Sys2Proof.Laws

section Effects

/-! ### One element at a time: what an own effect does before the common tail -/

variable {i : Instr} {s u : State}

/-- Every write is inside the tape (R52). -/
theorem effect_keeps_tape_wf (h : Effect i s u) (hwf : Memory.wf s.tape) : Memory.wf u.tape := by
  cases h with
  | inc hin | dec hin => exact wf_setTape _ hwf hin
  | input hin => exact wf_setTape _ (by simpa using hwf) hin
  | right | left | output | openFall | openJump | closeFall | closeJump | nop => exact hwf

/-- dp moves by at most one (R37). -/
theorem effect_dp_near (h : Effect i s u) : s.dp - 1 ≤ u.dp ∧ u.dp ≤ s.dp + 1 := by
  cases h with
  | right | left => rw [moveDp_dp]; omega
  | inc | dec | output | input | openFall | openJump | closeFall | closeJump | nop => simp

/-- ip stays, or is set to the index of the bracket a scan has landed on (R120, R121). -/
theorem effect_ip (h : Effect i s u) : u.ip = s.ip ∨ ∃ q : Nat, q < s.prog.length ∧ u.ip = q := by
  cases h with
  | openJump _ _ hscan => exact .inr ⟨_, (scanForward_lands hscan).2.1, rfl⟩
  | closeJump _ _ hscan => exact .inr ⟨_, (scanBackward_lands hscan).2.1, rfl⟩
  | input => exact .inl (by simp)
  | right | left | inc | dec | output | openFall | closeFall | nop => exact .inl rfl

/-- The cursor stays, or moves past one byte that is there (R54). -/
theorem effect_icur (h : Effect i s u) : u.icur = s.icur ∨ (s.icur < s.inp.length ∧ u.icur = s.icur + 1) := by
  cases h with
  | input =>
    obtain ⟨hlt, heq⟩ | ⟨-, heq⟩ := inTake_icur s
    · exact .inr ⟨hlt, heq⟩
    · exact .inl heq
  | right | left | inc | dec | output | openFall | openJump | closeFall | closeJump | nop => exact .inl rfl

/-- At most one byte is appended (R29). -/
theorem effect_out_length_le (h : Effect i s u) : u.out.length ≤ s.out.length + 1 := by
  cases h <;> simp

end Effects

/-! ### Steps of the core -/

/-- A change of `status` alone keeps the invariant where the new status means what it says (R31, R174). -/
theorem inv_setStatus {s : State} {v : Status} (hs : s.Inv)
    (hbudget : v = .haltBudget → s.bud = 0 ∧ s.ip < s.prog.length) (htape : v = .faultTape → ¬ InTape s.dp)
    (hbracket : v = .faultBracket →
      InTape s.dp ∧ (progRead s.prog s.ip = some 0x5B ∨ progRead s.prog s.ip = some 0x5D)) :
    (s.setStatus v).Inv :=
  { hs with haltBudget := hbudget, faultTape := htape, faultBracket := hbracket }

/-- The common tail after an own effect counts one more instruction (R149, R183). -/
theorem completed_retire_of_effect {i : Instr} {s u : State} (h : Effect i s u) (hbud : 0 < s.bud)
    (hle : s.bud ≤ s.budget) : u.retire.completed = s.completed + 1 := by
  obtain ⟨hB, hb, -⟩ := h.keeps
  simp only [State.completed, retire_budget, retire_bud, hB, hb]
  omega

/-- An instruction that completes keeps the invariant: each counter moves by at most one, and so does B - bud. -/
theorem inv_retire_of_effect {i : Instr} {s u : State} (hs : s.Inv) (hrun : s.status = .run)
    (hip : s.ip < s.prog.length) (hbud : 0 < s.bud) (h : Effect i s u) : u.retire.Inv := by
  have hcompleted := completed_retire_of_effect h hbud hs.budLe
  obtain ⟨hB, hb, hprog, hinp, hstatus⟩ := h.keeps
  have hrun' : u.retire.status = .run := hstatus.trans hrun
  have hip' : 0 ≤ u.ip ∧ u.ip < s.prog.length := by
    have := hs.ipNonneg
    obtain heq | ⟨q, hq, heq⟩ := effect_ip h <;> omega
  have hdp := effect_dp_near h
  have hicur := effect_icur h
  have hout := effect_out_length_le h
  exact
    { tape := effect_keeps_tape_wf (u := u) h hs.tape
      fits := by simpa only [retire_prog, retire_inp, retire_budget, hprog, hinp, hB] using hs.fits
      ipNonneg := by rw [retire_ip]; omega
      ipLe := by rw [retire_ip, retire_prog, hprog]; omega
      budLe := by rw [retire_bud, retire_budget, hb, hB]; have := hs.budLe; omega
      dpLe := by rw [retire_dp, hcompleted]; have := hs.dpLe; omega
      dpGe := by rw [retire_dp, hcompleted]; have := hs.dpGe; omega
      icurLe := by rw [retire_icur, retire_inp, hinp]; have := hs.icurLe; omega
      icurLeCompleted := by rw [retire_icur, hcompleted]; have := hs.icurLeCompleted; omega
      outLe := by rw [retire_out, hcompleted]; have := hs.outLe; omega
      haltBudget := fun hv => nomatch hrun'.symm.trans hv
      faultTape := fun hv => nomatch hrun'.symm.trans hv
      faultBracket := fun hv => nomatch hrun'.symm.trans hv }

/-- Only a cell access outside the tape raises TapeIndexOutOfRange (R171). -/
theorem not_inTape_of_raises {i : Instr} {s : State} (h : Raises i s .tapeIndexOutOfRange) : ¬ InTape s.dp := by
  cases h <;> assumption

/-- Only a bracket inside the tape raises UnmatchedBracket (R172, R177). -/
theorem bracket_of_raises {i : Instr} {s : State} (h : Raises i s .unmatchedBracket) :
    InTape s.dp ∧ (i = .loopOpen ∨ i = .loopClose) := by
  cases h with
  | openScan hin => exact ⟨hin, .inl rfl⟩
  | closeScan hin => exact ⟨hin, .inr rfl⟩

/-- A fault keeps the invariant: it leaves the offending dp, or the ip of the bracket, in place (R174, R178). -/
theorem inv_takeFault {s : State} {c : Byte} {e : Trap} (hs : s.Inv) (hc : progRead s.prog s.ip = some c)
    (h : Raises (decodeChar c) s e) : (s.takeFault e).Inv := by
  cases e with
  | tapeIndexOutOfRange => exact inv_setStatus hs nofun (fun _ => not_inTape_of_raises h) nofun
  | unmatchedBracket =>
    obtain ⟨hin, hkind⟩ := bracket_of_raises h
    rw [decodeChar_eq_open, decodeChar_eq_close] at hkind
    refine inv_setStatus hs nofun nofun fun _ => ⟨hin, ?_⟩
    rw [hc]
    exact hkind.imp (congrArg some) (congrArg some)

/-- Every step keeps the invariant. -/
theorem inv_step {s t : State} (hs : s.Inv) (h : step s = .next t) : t.Inv := by
  obtain ⟨-, rfl⟩ | ⟨-, -, rfl⟩ | ⟨-, hip, hbud, rfl⟩ | ⟨c, hrun, hip, hbud, hc, hexec⟩ := step_next h
  · exact hs
  · exact inv_setStatus hs nofun nofun nofun
  · exact inv_setStatus hs (fun _ => ⟨hbud, hip⟩) nofun nofun
  · obtain ⟨u, heffect, rfl⟩ | ⟨e, hraises, rfl⟩ := exec_next hexec
    · exact inv_retire_of_effect hs hrun hip hbud heffect
    · exact inv_takeFault hs hc hraises

/-! ### Operations of the host -/

/-- The invariant holds after RESET. -/
theorem inv_reset : State.reset.Inv := by constructor <;> decide

/-- THE INVERSION OF `hostStart`: a START that is not refused is the short-circuit, or a launch that fits (R201, R202). -/
theorem hostStart_next {s t : State} {prog inp : List Byte} {budget : Nat}
    (h : hostStart prog inp budget s = .next t) :
    s.status ≠ .run ∧ LaunchFits prog inp budget ∧
      ((prog.length = 0 ∧ t = s.shortCircuit) ∨ (0 < prog.length ∧ t = s.launch prog inp budget)) := by
  unfold hostStart at h
  split at h
  · cases h
  · next hrun =>
    split at h
    · next hfits =>
      split at h
      · next hlen => exact ⟨hrun, hfits, .inl ⟨hlen, by simpa using h.symm⟩⟩
      · next hlen => exact ⟨hrun, hfits, .inr ⟨by omega, by simpa using h.symm⟩⟩
    · cases h

/-- START with an empty program keeps the invariant, the launch parameters being kept (log 6). -/
theorem inv_shortCircuit {s : State} (hs : s.Inv) : s.shortCircuit.Inv :=
  { hs with outLe := Nat.zero_le _, haltBudget := nofun, faultTape := nofun, faultBracket := nofun }

/-- A launch that fits meets the invariant: only the tape is left of the state before (R201). -/
theorem inv_launch {s : State} {prog inp : List Byte} {budget : Nat} (hs : s.Inv)
    (hfits : LaunchFits prog inp budget) : (s.launch prog inp budget).Inv := by
  have hcompleted : (s.launch prog inp budget).completed = 0 := Nat.sub_self budget
  exact
    { tape := hs.tape
      fits := hfits
      ipNonneg := le_rfl
      ipLe := Int.natCast_nonneg _
      budLe := le_rfl
      dpLe := by simp [hcompleted]
      dpGe := by simp [hcompleted]
      icurLe := Nat.zero_le _
      icurLeCompleted := Nat.zero_le _
      outLe := Nat.zero_le _
      haltBudget := nofun
      faultTape := nofun
      faultBracket := nofun }

/-- START keeps the invariant. -/
theorem inv_hostStart {s t : State} {prog inp : List Byte} {budget : Nat} (hs : s.Inv)
    (h : hostStart prog inp budget s = .next t) : t.Inv := by
  obtain ⟨-, hfits, ⟨-, rfl⟩ | ⟨-, rfl⟩⟩ := hostStart_next h
  · exact inv_shortCircuit hs
  · exact inv_launch hs hfits

/-- The invariant holds in every reachable state. -/
theorem inv_of_reachable {s : State} (h : Reachable s) : s.Inv :=
  reachable_induction inv_reset (fun _ _ => inv_step) (fun _ _ _ _ _ => inv_hostStart) h

/-! ### The bounds -/

/-- Settles O8: the bounds of R37 are clauses of the invariant, and MAXCNT makes them fit 32 bits. -/
theorem reachableCountersBounded : Obligations.ReachableCountersBounded := by
  unfold Obligations.ReachableCountersBounded
  intro s hreach
  have hs := inv_of_reachable hreach
  have hsum : s.completed + s.bud = s.budget := Nat.sub_add_cancel hs.budLe
  obtain ⟨hPLEN, -, hB⟩ : s.prog.length ≤ 2147483647 ∧ s.inp.length ≤ 2147483647 ∧ s.budget ≤ 2147483647 := hs.fits
  have hdp : -(s.completed : Int) ≤ s.dp ∧ s.dp ≤ s.completed := ⟨hs.dpGe, hs.dpLe⟩
  have hip : 0 ≤ s.ip ∧ s.ip ≤ s.prog.length := ⟨hs.ipNonneg, hs.ipLe⟩
  refine ⟨hsum, hB, abs_le.mpr hdp, le_min hs.icurLeCompleted hs.icurLe, hs.outLe, hip.2, hPLEN, ?_⟩
  omega

end Sys2Proof.Proofs

/-! The state (10_state.md): which elements a step can touch and how, ip's range, the cells, RESET and START. -/

namespace Sys2Proof.Proofs

open Sys2Proof.Machine Sys2Proof.Laws

section Writers

/-! ### Which own effects write which element (R20) -/

variable {i : Instr} {s u : State}

/-- `+`, `-` and `,` alone write the tape. -/
theorem effect_writes_tape (h : Effect i s u) : u.tape = s.tape ∨ i = .inc ∨ i = .dec ∨ i = .input := by
  cases h with
  | inc => exact .inr (.inl rfl)
  | dec => exact .inr (.inr (.inl rfl))
  | input => exact .inr (.inr (.inr rfl))
  | right | left | output | openFall | openJump | closeFall | closeJump | nop => exact .inl rfl

/-- `>` and `<` alone write dp. -/
theorem effect_writes_dp (h : Effect i s u) : u.dp = s.dp ∨ i = .right ∨ i = .left := by
  cases h with
  | right => exact .inr (.inl rfl)
  | left => exact .inr (.inr rfl)
  | input => exact .inl (by simp)
  | inc | dec | output | openFall | openJump | closeFall | closeJump | nop => exact .inl rfl

/-- `,` alone writes icur. -/
theorem effect_writes_icur (h : Effect i s u) : u.icur = s.icur ∨ i = .input := by
  cases h with
  | input => exact .inr rfl
  | right | left | inc | dec | output | openFall | openJump | closeFall | closeJump | nop => exact .inl rfl

/-- `.` alone writes out, and what it writes is one more byte at the end (R29). -/
theorem effect_writes_out (h : Effect i s u) :
    u.out = s.out ∨ (i = .output ∧ u.out = s.out ++ [s.tapeAt s.dp]) := by
  cases h with
  | output => exact .inr ⟨rfl, rfl⟩
  | input => exact .inl (by simp)
  | right | left | inc | dec | openFall | openJump | closeFall | closeJump | nop => exact .inl rfl

/-- Only the two brackets write ip before the common tail, each to the index of the text on which its own scan lands. -/
theorem effect_writes_ip (h : Effect i s u) :
    u.ip = s.ip ∨ ∃ q : Nat, q < s.prog.length ∧ u.ip = q ∧
      ((i = .loopOpen ∧ scanForward s.prog s.ip = .found q) ∨
        (i = .loopClose ∧ scanBackward s.prog s.ip = .found q)) := by
  cases h with
  | openJump _ _ hscan => exact .inr ⟨_, (scanForward_lands hscan).2.1, rfl, .inl ⟨rfl, hscan⟩⟩
  | closeJump _ _ hscan => exact .inr ⟨_, (scanBackward_lands hscan).2.1, rfl, .inr ⟨rfl, hscan⟩⟩
  | input => exact .inl (by simp)
  | right | left | inc | dec | output | openFall | closeFall | nop => exact .inl rfl

end Writers

/-- A step is a change of `status` alone (a rest, a halt, a fault), or an own effect and the common tail. -/
theorem step_next_setStatus_or_effect {s t : State} (h : step s = .next t) :
    (∃ v, t = s.setStatus v) ∨ ∃ i u, Effect i s u ∧ t = u.retire := by
  obtain ⟨-, rfl⟩ | ⟨-, -, rfl⟩ | ⟨-, -, -, rfl⟩ | ⟨c, -, -, -, -, hexec⟩ := step_next h
  · exact .inl ⟨_, rfl⟩
  · exact .inl ⟨_, rfl⟩
  · exact .inl ⟨_, rfl⟩
  · obtain ⟨u, heffect, rfl⟩ | ⟨e, -, rfl⟩ := exec_next hexec
    · exact .inr ⟨_, u, heffect, rfl⟩
    · exact .inl ⟨_, rfl⟩

/-! ### The invariant -/

/-- Settles O3: each counter moves by at most one where B - bud does, and a stop names what it found. -/
theorem stepKeepsInvariant : Obligations.StepKeepsInvariant := by
  unfold Obligations.StepKeepsInvariant
  exact fun _ _ => inv_step

/-- Settles O2: every clause is a closed fact about the reset state. -/
theorem resetMeetsInvariant : Obligations.ResetMeetsInvariant := inv_reset

/-! ### The instruction pointer -/

/-- How one step at an index of the text moves ip: a stop keeps it, and a completed instruction moves it past where it
was or past where the scan of the bracket at it has landed (R148). -/
theorem step_ip {s t : State} {n : Nat} (hrun : s.status = .run) (hip : s.ip = n) (hn : n < s.prog.length)
    (h : step s = .next t) :
    (t.ip = s.ip ∧ t.status ≠ .run) ∨ (t.ip = s.ip + 1 ∧ t.status = .run) ∨
      ∃ q : Nat, q < s.prog.length ∧ t.ip = (q : Int) + 1 ∧ t.status = .run ∧
        ((s.prog[n]? = some 0x5B ∧ scanForward s.prog n = .found q) ∨
          (s.prog[n]? = some 0x5D ∧ scanBackward s.prog n = .found q)) := by
  obtain ⟨hrest, -⟩ | ⟨-, hend, -⟩ | ⟨-, -, -, rfl⟩ | ⟨c, -, -, -, hc, hexec⟩ := step_next h
  · exact absurd hrun hrest
  · omega
  · exact .inl ⟨rfl, nofun⟩
  · obtain ⟨u, heffect, rfl⟩ | ⟨e, -, rfl⟩ := exec_next hexec
    · obtain ⟨-, -, -, -, hstatus⟩ := heffect.keeps
      have hrun' : u.retire.status = .run := hstatus.trans hrun
      obtain hsame | ⟨q, hq, huip, hlands⟩ := effect_writes_ip heffect
      · exact .inr (.inl ⟨congrArg (· + 1) hsame, hrun'⟩)
      · rw [hip, progRead_natCast] at hc
        rw [hip, decodeChar_eq_open, decodeChar_eq_close] at hlands
        refine .inr (.inr ⟨q, hq, congrArg (· + 1) huip, hrun', ?_⟩)
        rw [hc]
        exact hlands.imp (And.imp_left (congrArg some)) (And.imp_left (congrArg some))
    · exact .inl ⟨rfl, trap_status_ne_run e⟩

/-- Settles O7: the range is the invariant's, the moves are those of `step_ip`. -/
theorem ipStaysInText : Obligations.IpStaysInText := by
  unfold Obligations.IpStaysInText
  refine ⟨fun s hreach => ?_, fun s t n => step_ip⟩
  have hs := inv_of_reachable hreach
  exact ⟨hs.ipNonneg, hs.ipLe⟩

/-! ### What a run keeps -/

/-- The output of the second state continues that of the first, and the cursor has not gone back (R38). -/
abbrev StreamsAdvance (s t : State) : Prop := s.out <+: t.out ∧ s.icur ≤ t.icur

theorem step_streamsAdvance {s t : State} (h : step s = .next t) : StreamsAdvance s t := by
  obtain ⟨v, rfl⟩ | ⟨i, u, heffect, rfl⟩ := step_next_setStatus_or_effect h
  · exact ⟨List.prefix_rfl, le_rfl⟩
  · refine ⟨?_, ?_⟩
    · rw [retire_out]
      obtain hsame | ⟨-, hout⟩ := effect_writes_out heffect
      · rw [hsame]
      · exact ⟨_, hout.symm⟩
    · rw [retire_icur]
      have := effect_icur heffect
      omega

/-- Settles O18: `StreamsAdvance` is a preorder that every step respects. -/
theorem outputGrowsAndCursorAdvances : Obligations.OutputGrowsAndCursorAdvances := by
  unfold Obligations.OutputGrowsAndCursorAdvances
  intro k s t
  exact runSteps_induction (R := StreamsAdvance) (fun _ => ⟨List.prefix_rfl, le_rfl⟩)
    (fun _ _ _ ⟨hout, hicur⟩ ⟨hout', hicur'⟩ => ⟨hout.trans hout', hicur.trans hicur'⟩)
    (fun _ _ => step_streamsAdvance) k

/-- The launch parameters of the second state are those of the first (R32). -/
abbrev SameLaunch (s t : State) : Prop := t.prog = s.prog ∧ t.inp = s.inp ∧ t.budget = s.budget

theorem step_sameLaunch {s t : State} (h : step s = .next t) : SameLaunch s t := by
  obtain ⟨v, rfl⟩ | ⟨i, u, heffect, rfl⟩ := step_next_setStatus_or_effect h
  · exact ⟨rfl, rfl, rfl⟩
  · obtain ⟨hB, -, hprog, hinp, -⟩ := heffect.keeps
    exact ⟨hprog, hinp, hB⟩

/-- Settles O40: `SameLaunch` is a preorder that every step respects. -/
theorem launchParametersConstant : Obligations.LaunchParametersConstant := by
  unfold Obligations.LaunchParametersConstant
  intro k s t
  exact runSteps_induction (R := SameLaunch) (fun _ => ⟨rfl, rfl, rfl⟩)
    (fun _ _ _ ⟨hprog, hinp, hB⟩ ⟨hprog', hinp', hB'⟩ => ⟨hprog'.trans hprog, hinp'.trans hinp, hB'.trans hB⟩)
    (fun _ _ => step_sameLaunch) k

/-! ### Who writes what -/

/-- Settles O37: the common tail and a fault write none of the four elements, so the own effects decide. -/
theorem onlyNamedInstructionsWrite : Obligations.OnlyNamedInstructionsWrite := by
  unfold Obligations.OnlyNamedInstructionsWrite
  intro i s t h
  obtain ⟨u, heffect, rfl⟩ | ⟨e, -, rfl⟩ := exec_next h
  · exact
      ⟨(effect_writes_tape heffect).resolve_left, (effect_writes_dp heffect).resolve_left,
        (effect_writes_icur heffect).resolve_left, fun hne => ((effect_writes_out heffect).resolve_left hne).1⟩
  · exact ⟨absurd rfl, absurd rfl, absurd rfl, absurd rfl⟩

/-! ### The cells -/

/-- The bias of R22, free of the truncation at 0 that `phys` has below the tape. -/
theorem phys_eq_add_bias {i : Int} (h : InTape i) : (phys i : Int) = i + 25000 := by
  simp only [InTape, Config.low, phys, Config.bias] at *
  omega

/-- Every physical index is that of a logical one, its distance from the bias (R22). -/
theorem exists_phys_eq {a : Nat} (h : a < 50000) : ∃ i : Int, InTape i ∧ phys i = a := by
  have hin : InTape ((a : Int) - 25000) := by
    simp only [InTape, Config.low, Config.high]
    omega
  have hphys := phys_eq_add_bias hin
  exact ⟨_, hin, by omega⟩

/-- Settles O39: `phys` is a bijection onto the 50000 physical indices, so that a write meets one cell. -/
theorem logicalIndicesAreDistinctCells : Obligations.LogicalIndicesAreDistinctCells := by
  unfold Obligations.LogicalIndicesAreDistinctCells
  refine ⟨fun i => Iff.rfl, by decide, fun i hi => ⟨phys_eq_add_bias hi, phys_lt hi⟩, fun a => exists_phys_eq,
    rfl, rfl, fun i j => phys_inj, fun s i v hi => ⟨cell_setTape_self s v hi, fun j hj => ?_⟩⟩
  exact cell_setTape_other s v hi hj

/-! ### RESET and START -/

/-- Every cell of the tape is 0 after RESET (R40, D16). -/
theorem reset_cell {i : Int} (h : InTape i) : State.reset.cell i = some 0 := cell_eq_some.mpr ⟨h, rfl⟩

/-- Settles O1: RESET gives the reset state, whose cells `reset_cell` reads. -/
theorem resetSetsEveryElement : Obligations.ResetSetsEveryElement := by
  unfold Obligations.ResetSetsEveryElement
  exact fun s => ⟨rfl, rfl, rfl, rfl, rfl, rfl, fun i hlow hhigh => reset_cell ⟨hlow, hhigh⟩, rfl⟩

/-- A START that fits, with a program and no run in progress, is a launch (the other direction of `hostStart_next`). -/
theorem hostStart_of_fits {s : State} {prog inp : List Byte} {budget : Nat} (hrun : s.status ≠ .run)
    (hfits : LaunchFits prog inp budget) (hlen : 0 < prog.length) :
    hostStart prog inp budget s = .next (s.launch prog inp budget) := by
  rw [hostStart, if_neg hrun, if_pos hfits, if_neg hlen.ne']

/-- Settles O44: the state begun with is the launch of `hostStart_of_fits`, field by field. -/
theorem startBeginsRun : Obligations.StartBeginsRun := by
  unfold Obligations.StartBeginsRun
  exact fun s prog inp budget hrun hlen hPLEN hILEN hB => hostStart_of_fits hrun ⟨hPLEN, hILEN, hB⟩ hlen

/-! ### The status codes -/

/-- The status with a given code; the codes 6 and 7 are those of none (R31, U16). -/
def statusOfCode : BitVec 3 → Option Status
  | 0 => some .idle
  | 1 => some .run
  | 2 => some .haltEnd
  | 3 => some .haltBudget
  | 4 => some .faultTape
  | 5 => some .faultBracket
  | _ => none

theorem statusOfCode_code (v : Status) : statusOfCode v.code = some v := by cases v <;> rfl

/-- A status can be read off its code. -/
theorem code_injective {v w : Status} (h : v.code = w.code) : v = w := by
  have hsome : some v = some w := by rw [← statusOfCode_code v, h, statusOfCode_code w]
  exact Option.some.inj hsome

/-- Settles O36: the codes are those of the table of R31, and `statusOfCode` reads the status back. -/
theorem statusAndCauseCodes : Obligations.StatusAndCauseCodes := by
  unfold Obligations.StatusAndCauseCodes
  exact ⟨rfl, rfl, rfl, rfl, rfl, rfl, rfl, rfl, fun v w => code_injective⟩

end Sys2Proof.Proofs

/-! Memory, input and output (20_memory.md): where an instruction stops, which cell a step can change, and that a step
reads no input byte but the one at the cursor and nothing of the output. -/

namespace Sys2Proof.Proofs

open Sys2Proof.Machine Sys2Proof.Laws

/-! ### Where an instruction stops -/

/-- When an instruction stops: the scan of a taken bracket would begin outside the text (R53, log 4). -/
inductive Stops : Instr → State → Prop where
  | openScan {s : State} : InTape s.dp → s.tapeAt s.dp = 0 → scanForward s.prog s.ip = .outside → Stops .loopOpen s
  | closeScan {s : State} : InTape s.dp → s.tapeAt s.dp ≠ 0 → scanBackward s.prog s.ip = .outside → Stops .loopClose s

theorem exec_of_stops {i : Instr} {s : State} (h : Stops i s) : exec i s = .fault .progReadOutOfRange := by
  cases h with
  | openScan hin hv hscan => simp only [exec, execLoopOpen_eq]; rw [if_pos hin, if_pos hv, hscan]; rfl
  | closeScan hin hv hscan => simp only [exec, execLoopClose_eq]; rw [if_pos hin, if_neg hv, hscan]; rfl

/-- Every instruction in every state completes, takes a fault or stops: with `exec_of_effect`, `exec_of_raises` and
`exec_of_stops` this says what `exec` answers. -/
theorem effect_or_raises_or_stops (i : Instr) (s : State) :
    (∃ u, Effect i s u) ∨ (∃ e, Raises i s e) ∨ Stops i s := by
  by_cases hin : InTape s.dp
  · cases i with
    | right => exact .inl ⟨_, .right s⟩
    | left => exact .inl ⟨_, .left s⟩
    | inc => exact .inl ⟨_, .inc hin⟩
    | dec => exact .inl ⟨_, .dec hin⟩
    | output => exact .inl ⟨_, .output hin⟩
    | input => exact .inl ⟨_, .input hin⟩
    | nop c => exact .inl ⟨_, .nop c s⟩
    | loopOpen =>
      by_cases hv : s.tapeAt s.dp = 0
      · cases hscan : scanForward s.prog s.ip with
        | found q => exact .inl ⟨_, .openJump hin hv hscan⟩
        | unmatched => exact .inr (.inl ⟨_, .openScan hin hv hscan⟩)
        | outside => exact .inr (.inr (.openScan hin hv hscan))
      · exact .inl ⟨_, .openFall hin hv⟩
    | loopClose =>
      by_cases hv : s.tapeAt s.dp = 0
      · exact .inl ⟨_, .closeFall hin hv⟩
      · cases hscan : scanBackward s.prog s.ip with
        | found q => exact .inl ⟨_, .closeJump hin hv hscan⟩
        | unmatched => exact .inr (.inl ⟨_, .closeScan hin hv hscan⟩)
        | outside => exact .inr (.inr (.closeScan hin hv hscan))
  · cases i with
    | right => exact .inl ⟨_, .right s⟩
    | left => exact .inl ⟨_, .left s⟩
    | nop c => exact .inl ⟨_, .nop c s⟩
    | inc => exact .inr (.inl ⟨_, .inc hin⟩)
    | dec => exact .inr (.inl ⟨_, .dec hin⟩)
    | output => exact .inr (.inl ⟨_, .output hin⟩)
    | input => exact .inr (.inl ⟨_, .input hin⟩)
    | loopOpen => exact .inr (.inl ⟨_, .loopOpen hin⟩)
    | loopClose => exact .inr (.inl ⟨_, .loopClose hin⟩)

/-- A stop is a bracket's, with ip below -1 or above PLEN. -/
theorem bracket_outside_of_stops {i : Instr} {s : State} (h : Stops i s) :
    (s.ip + 1 < 0 ∨ s.prog.length < s.ip) ∧ (i = .loopOpen ∨ i = .loopClose) := by
  cases h with
  | openScan _ _ hscan =>
    have hip : s.ip + 1 < 0 := not_le.mp fun hle => scanForward_ne_outside hle hscan
    exact ⟨.inl hip, .inl rfl⟩
  | closeScan _ _ hscan =>
    have hip : s.prog.length < s.ip := not_le.mp fun hle => scanBackward_ne_outside hle hscan
    exact ⟨.inr hip, .inr rfl⟩

/-- Settles O6: of the three things an instruction can do, only `Stops` answers no next state. -/
theorem execStopsOnlyOutsideText : Obligations.ExecStopsOnlyOutsideText := by
  unfold Obligations.ExecStopsOnlyOutsideText
  intro i s
  obtain ⟨u, heffect⟩ | ⟨e, hraises⟩ | hstops := effect_or_raises_or_stops i s
  · rw [exec_of_effect heffect]
    exact ⟨nofun, nofun⟩
  · rw [exec_of_raises hraises]
    exact ⟨nofun, nofun⟩
  · rw [exec_of_stops hstops]
    refine ⟨fun f hf => ?_, nofun⟩
    cases hf
    exact ⟨rfl, bracket_outside_of_stops hstops⟩

/-! ### The one cell a step can change -/

/-- An own effect leaves the tape, or writes the cell at dp, inside the tape (R51, R52). -/
theorem effect_tape_eq_or_setTape {i : Instr} {s u : State} (h : Effect i s u) :
    u.tape = s.tape ∨ (InTape s.dp ∧ ∃ v, u.tape = (s.setTape s.dp v).tape) := by
  cases h with
  | inc hin | dec hin => exact .inr ⟨hin, _, rfl⟩
  | input hin => exact .inr ⟨hin, s.inTake.1, by simp⟩
  | right | left | output | openFall | openJump | closeFall | closeJump | nop => exact .inl rfl

/-- A step leaves the tape, or writes the cell at dp, inside the tape. -/
theorem step_tape_eq_or_setTape {s t : State} (h : step s = .next t) :
    t.tape = s.tape ∨ (InTape s.dp ∧ ∃ v, t.tape = (s.setTape s.dp v).tape) := by
  obtain ⟨v, rfl⟩ | ⟨i, u, heffect, rfl⟩ := step_next_setStatus_or_effect h
  · exact .inl rfl
  · exact effect_tape_eq_or_setTape (u := u) heffect

/-- Settles O38: a step's one write is that of `step_tape_eq_or_setTape`, with the frame of `setTape`. -/
theorem onlyCellAtDpChanges : Obligations.OnlyCellAtDpChanges := by
  unfold Obligations.OnlyCellAtDpChanges
  intro s t h
  obtain hsame | ⟨hin, v, hwrite⟩ := step_tape_eq_or_setTape h
  · exact ⟨fun j _ => cell_congr hsame j, fun a _ => by rw [hsame], fun _ => hsame⟩
  · refine ⟨fun j hj => ?_, fun a ha => ?_, absurd hin⟩
    · exact (cell_congr hwrite j).trans (cell_setTape_other s v hin hj)
    · rw [hwrite, read_setTape_other s v ha]

/-! ### What a step reads of the two streams -/

/-- The state with another input, and with bytes put in front of its output. -/
def withStreams (inp front : List Byte) (s : State) : State := { s with inp := inp, out := front ++ s.out }

section Streams

variable {i : Instr} {s u : State} {inp : List Byte} (front : List Byte)

/-- What `.` appends goes behind the bytes put in front. -/
theorem withStreams_outAppend (v : Byte) :
    withStreams inp front (s.outAppend v) = (withStreams inp front s).outAppend v := by
  simp only [withStreams, State.outAppend, List.append_assoc]

/-- `InTake` takes the same from an input with the same byte, or none, at the cursor (R54). -/
theorem inTake_withStreams (hbyte : inp[s.icur]? = s.inp[s.icur]?) :
    (withStreams inp front s).inTake = (s.inTake.1, withStreams inp front s.inTake.2) := by
  cases hs : s.inp[s.icur]? with
  | some v => rw [inTake_of_some hs, inTake_of_some (s := withStreams inp front s) (hbyte.trans hs)]; rfl
  | none => rw [inTake_of_none hs, inTake_of_none (s := withStreams inp front s) (hbyte.trans hs)]

/-- An own effect is the same with other streams: `,` looks at the byte at the cursor only, `.` appends. -/
theorem effect_withStreams (hbyte : inp[s.icur]? = s.inp[s.icur]?) (h : Effect i s u) :
    Effect i (withStreams inp front s) (withStreams inp front u) := by
  cases h with
  | right => exact .right _
  | left => exact .left _
  | inc hin => exact .inc hin
  | dec hin => exact .dec hin
  | output hin =>
    rw [withStreams_outAppend]
    exact .output hin
  | input hin =>
    have heffect : Effect .input (withStreams inp front s) _ := .input hin
    rwa [inTake_withStreams front hbyte] at heffect
  | openFall hin hv => exact .openFall hin hv
  | openJump hin hv hscan => exact .openJump hin hv hscan
  | closeFall hin hv => exact .closeFall hin hv
  | closeJump hin hv hscan => exact .closeJump hin hv hscan
  | nop c => exact .nop c _

/-- Neither stream decides a fault. -/
theorem raises_withStreams {e : Trap} (h : Raises i s e) : Raises i (withStreams inp front s) e := by
  cases h <;> constructor <;> assumption

/-- Neither stream decides a stop. -/
theorem stops_withStreams (h : Stops i s) : Stops i (withStreams inp front s) := by
  cases h <;> constructor <;> assumption

theorem exec_withStreams (hbyte : inp[s.icur]? = s.inp[s.icur]?) (i : Instr) :
    exec i (withStreams inp front s) = mapNext (withStreams inp front) (exec i s) := by
  obtain ⟨u, heffect⟩ | ⟨e, hraises⟩ | hstops := effect_or_raises_or_stops i s
  · rw [exec_of_effect heffect, exec_of_effect (effect_withStreams front hbyte heffect)]
    rfl
  · rw [exec_of_raises hraises, exec_of_raises (raises_withStreams front hraises)]
    rfl
  · rw [exec_of_stops hstops, exec_of_stops (stops_withStreams front hstops)]
    rfl

theorem dispatch_withStreams (hbyte : inp[s.icur]? = s.inp[s.icur]?) :
    dispatch exec (withStreams inp front s) = mapNext (withStreams inp front) (dispatch exec s) := by
  cases hc : progRead s.prog s.ip with
  | some c => rw [dispatch_of_some exec hc, dispatch_of_some (s := withStreams inp front s) exec hc,
      exec_withStreams front hbyte]
  | none => rw [dispatch_of_none exec hc, dispatch_of_none (s := withStreams inp front s) exec hc]; rfl

/-- Of the input a step reads the byte at the cursor only, and of the output nothing (R50, R54, R55). -/
theorem step_withStreams (hbyte : inp[s.icur]? = s.inp[s.icur]?) :
    step (withStreams inp front s) = mapNext (withStreams inp front) (step s) := by
  rw [step_eq, step_eq, dispatch_withStreams front hbyte]
  simp only [apply_ite (mapNext (withStreams inp front))]
  rfl

end Streams

/-- Results whose next states two changes agree on are changed alike. -/
theorem mapNext_congr {f g : State → State} {r : Result} (h : ∀ t, r = .next t → f t = g t) :
    mapNext f r = mapNext g r := by
  cases r with
  | next t => exact congrArg Host.Outcome.next (h t rfl)
  | fault | refused => rfl

/-- Settles O41: `step_withStreams` with nothing put in front of the output. -/
theorem stepReadsOnlyNextInputByte : Obligations.StepReadsOnlyNextInputByte := by
  unfold Obligations.StepReadsOnlyNextInputByte
  exact fun s inp' hbyte => step_withStreams [] hbyte

/-- Settles O43: `step_withStreams` with the input as it is, which the step keeps. -/
theorem outputIsNeverRead : Obligations.OutputIsNeverRead := by
  unfold Obligations.OutputIsNeverRead
  intro s front
  refine (step_withStreams front (inp := s.inp) rfl).trans (mapNext_congr fun t h => ?_)
  obtain ⟨-, hinp, -⟩ := step_sameLaunch h
  rw [withStreams, ← hinp]

end Sys2Proof.Proofs

/-! Encoding (30_encoding.md): decode and encode undo each other, the words of the opcode map, and the NOP space. -/

namespace Sys2Proof.Proofs

open Sys2Proof.Laws

/-! ### Decode and encode -/

/-- The character of a well-formed instruction decodes to it (R72, R73). -/
theorem decodeChar_encodeChar (i : Instr) : DecodeEncode.Statement i := by
  cases i with
  | right => exact DecodeEncode.right
  | left => exact DecodeEncode.left
  | inc => exact DecodeEncode.inc
  | dec => exact DecodeEncode.dec
  | output => exact DecodeEncode.output
  | input => exact DecodeEncode.input
  | loopOpen => exact DecodeEncode.loopOpen
  | loopClose => exact DecodeEncode.loopClose
  | nop c => exact DecodeEncode.nop c

/-- An instruction is read back from the front of any text (R70, R72). -/
theorem decode_encode_append {i : Instr} (hwf : i.wf = true) (rest : List Byte) :
    decode (encode i ++ rest) = .ok (i, rest) :=
  calc decode (encode i ++ rest)
    _ = .ok (decodeChar (encodeChar i), rest) := decode_cons (encodeChar i) rest
    _ = .ok (i, rest) := by rw [decodeChar_encodeChar i hwf]

theorem decodeText_encodeText {is : List Instr} (hwf : ∀ i ∈ is, i.wf = true) :
    decodeText (encodeText is) = is := by
  induction is with
  | nil => rfl
  | cons i is ih =>
    obtain ⟨hi, his⟩ := List.forall_mem_cons.mp hwf
    rw [encodeText_cons, decodeText_cons, decodeChar_encodeChar i hi, ih his]

theorem encodeText_decodeText (text : List Byte) : encodeText (decodeText text) = text := by
  induction text with
  | nil => rfl
  | cons c rest ih => rw [decodeText_cons, encodeText_cons, encodeChar_decodeChar, ih]

/-- One instruction a character (R70, R141). -/
theorem length_decodeText (text : List Byte) : (decodeText text).length = text.length :=
  List.length_map decodeChar

/-- Every instruction of a text comes from one of its characters, and so is well-formed. -/
theorem wf_of_mem_decodeText {text : List Byte} {i : Instr} (h : i ∈ decodeText text) : i.wf = true := by
  obtain ⟨c, -, rfl⟩ := List.mem_map.mp h
  exact decodeChar_wf c

/-- Settles O9: by induction on the instructions, each read back from its own character. -/
theorem decodeEncodeAgree : Obligations.DecodeEncodeAgree := by
  unfold Obligations.DecodeEncodeAgree
  exact ⟨fun _ => decodeText_encodeText, fun _ rest hwf => decode_encode_append hwf rest⟩

/-- Settles O10: by induction on the text, each character read off the instruction it decodes to. -/
theorem encodeDecodeAgree : Obligations.EncodeDecodeAgree := by
  unfold Obligations.EncodeDecodeAgree
  exact fun text => ⟨encodeText_decodeText text, length_decodeText text, fun _ => wf_of_mem_decodeText⟩

/-! ### The opcode map and the NOP space -/

/-- A word of one byte is the one character it holds. -/
theorem decodeTableWord_byte (w : Nat) : decodeTableWord 8 w = some (decodeChar (BitVec.ofNat 8 w)) := by
  have hbytes : tableBytes 8 w = [BitVec.ofNat 8 w] := by simp [tableBytes]
  rw [decodeTableWord, hbytes, decode_cons]

/-- Settles O11: each word is one character, which `Decode` compares with the eight of R72. -/
theorem opcodeMapWordsDecode : Obligations.OpcodeMapWordsDecode := by
  unfold Obligations.OpcodeMapWordsDecode
  simp only [decodeTableWord_byte]
  decide

/-- The characters that decode to a NOP are those of the NOP space. -/
theorem decodeChar_eq_nop_iff (c : Byte) : decodeChar c = .nop c ↔ inNopSpace c = true := by
  constructor
  · intro hnop
    have hwf : (decodeChar c).wf = true := decodeChar_wf c
    rwa [hnop] at hwf
  · exact decodeChar_nop c

/-- The NOP space is the six ranges of R74. -/
theorem inNopSpace_iff (c : Byte) : inNopSpace c = true ↔
    (c.toNat ≤ 42 ∨ (47 ≤ c.toNat ∧ c.toNat ≤ 59) ∨ c.toNat = 61 ∨ (63 ≤ c.toNat ∧ c.toNat ≤ 90) ∨
      c.toNat = 92 ∨ 94 ≤ c.toNat) := by
  simp only [inNopSpace, Bool.or_eq_true, Bool.and_eq_true, decide_eq_true_eq, beq_iff_eq, or_assoc]

/-- The byte values of the eight tokens (R73). -/
def tokenCodes : Finset Nat := {0x2B, 0x2C, 0x2D, 0x2E, 0x3C, 0x3E, 0x5B, 0x5D}

/-- A character is a NOP exactly when it is none of the eight tokens (R72, R74). -/
theorem decodeChar_eq_nop_iff_not_token {n : Nat} (hn : n < 256) :
    decodeChar (BitVec.ofNat 8 n) = .nop (BitVec.ofNat 8 n) ↔ n ∉ tokenCodes := by
  have hval : (BitVec.ofNat 8 n).toNat = n := Nat.mod_eq_of_lt hn
  rw [decodeChar_eq_nop_iff, inNopSpace_iff, hval]
  simp only [tokenCodes, Finset.mem_insert, Finset.mem_singleton]
  omega

theorem filter_decodeChar_nop :
    ((Finset.range 256).filter fun n => decodeChar (BitVec.ofNat 8 n) == .nop (BitVec.ofNat 8 n)) =
      Finset.range 256 \ tokenCodes := by
  rw [Finset.sdiff_eq_filter]
  refine Finset.filter_congr fun n hn => ?_
  rw [beq_iff_eq]
  exact decodeChar_eq_nop_iff_not_token (Finset.mem_range.mp hn)

/-- Of the 256 characters all but the eight tokens are NOPs. -/
theorem length_filter_decodeChar_nop :
    ((List.range 256).filter fun n => decodeChar (BitVec.ofNat 8 n) == .nop (BitVec.ofNat 8 n)).length = 248 := by
  have htokens : tokenCodes ⊆ Finset.range 256 := by decide
  calc _
    _ = ((Finset.range 256).filter fun n =>
          decodeChar (BitVec.ofNat 8 n) == .nop (BitVec.ofNat 8 n)).card := by
      simp only [Finset.card, Finset.filter_val, Finset.range_val, Multiset.range, Multiset.filter_coe,
        Multiset.coe_card, Bool.decide_eq_true]
    _ = (Finset.range 256).card - tokenCodes.card := by
      rw [filter_decodeChar_nop, Finset.card_sdiff_of_subset htokens]
    _ = 256 - 8 := by rw [Finset.card_range]; rfl

/-- Settles O12: the decoder's NOPs are the NOP space, which is written as the six ranges, and 248 is their count. -/
theorem nopSpaceIsTheSixRanges : Obligations.NopSpaceIsTheSixRanges := by
  unfold Obligations.NopSpaceIsTheSixRanges
  exact ⟨fun c => (decodeChar_eq_nop_iff c).trans (inNopSpace_iff c), length_filter_decodeChar_nop⟩

end Sys2Proof.Proofs

/-! Pointer moves (40_pointer_moves.md): `>` and `<` complete wherever dp is. -/

namespace Sys2Proof.Proofs

open Sys2Proof.Machine Sys2Proof.Laws

/-- A pointer move and the common tail write dp, ip and bud, and nothing else (R90, R91, R148, R149). -/
theorem retire_moveDp (s : State) (d : Int) :
    (s.moveDp d).retire = { s with dp := s.dp + d, ip := s.ip + 1, bud := s.bud - 1 } := rfl

/-- `>` completes in every state: its own effect has no bounds check (R90, R92). -/
theorem exec_right (s : State) :
    exec .right s = .next { s with dp := s.dp + 1, ip := s.ip + 1, bud := s.bud - 1 } := by
  rw [exec_of_effect (.right s), retire_moveDp]

/-- `<` completes in every state: its own effect has no bounds check (R91, R92). -/
theorem exec_left (s : State) :
    exec .left s = .next { s with dp := s.dp - 1, ip := s.ip + 1, bud := s.bud - 1 } := by
  rw [exec_of_effect (.left s), retire_moveDp, ← Int.sub_eq_add_neg]

/-- Settles O20: both moves complete in every state, and so also where bud > 0. -/
theorem pointerMovesNeverFault : Obligations.PointerMovesNeverFault := by
  unfold Obligations.PointerMovesNeverFault
  exact ⟨decodeChar_encodeChar .right rfl, decodeChar_encodeChar .left rfl,
    fun s _ => ⟨exec_right s, exec_left s⟩⟩

end Sys2Proof.Proofs

/-! Cell arithmetic (41_cell_arithmetic.md): `+` and `-` are read-modify-writes of the cell at dp with functions that
undo each other. -/

namespace Sys2Proof.Proofs

open Sys2Proof.Machine Sys2Proof.Laws

/-! ### One cell written -/

/-- Where one state's tape is another's with one cell written, that cell reads as written, and every other cell and byte
as before (R51, R52). -/
theorem cell_and_frame_of_setTape {s t : State} {i : Int} {v : Byte} (hi : InTape i)
    (htape : t.tape = (s.setTape i v).tape) :
    t.cell i = some v ∧ SameCellsBut i s t ∧ SameMemoryBut (phys i) s t := by
  refine ⟨?_, fun j hj => ?_, fun a ha => ?_⟩
  · exact (cell_congr htape i).trans (cell_setTape_self s v hi)
  · exact (cell_congr htape j).trans (cell_setTape_other s v hi hj)
  · rw [htape, read_setTape_other s v ha]

/-- A cell written and then written back as it was: every byte reads as before, though the list may be another. -/
theorem read_setTape_restored (s : State) (i : Int) (v : Byte) (a : Nat) :
    Memory.read ((s.setTape i v).setTape i (s.tapeAt i)).tape a = Memory.read s.tape a := by
  by_cases ha : a = phys i
  · subst ha
    exact tapeAt_setTape_self (s.setTape i v) i (s.tapeAt i)
  · rw [read_setTape_other _ _ ha, read_setTape_other s v ha]

/-- A cell depends on the bytes of the tape only. -/
theorem cell_congr_read {s t : State} (h : ∀ a, Memory.read t.tape a = Memory.read s.tape a) (i : Int) :
    t.cell i = s.cell i := by
  simp only [State.cell, State.tapeAt, h]

/-- A dp beyond either end has no cell (R15, R171). -/
theorem not_inTape_of_outside {i : Int} (h : i < -25000 ∨ 24999 < i) : ¬ InTape i :=
  fun ⟨hlow, hhigh⟩ => h.elim (not_lt.mpr hlow) (not_lt.mpr hhigh)

/-! ### Read-modify-write of the cell at dp -/

section ModifyOperand

variable {f g : Byte → Byte} {s : State}

theorem modifyOperand_of_inTape (hin : InTape s.dp) :
    modifyOperand f s = .next (s.setTape s.dp (f (s.tapeAt s.dp))).retire := by
  rw [modifyOperand_eq, if_pos hin]

/-- A read-modify-write puts `f` of the cell back in it; all else that it does is the common tail (R58, R148, R149). -/
theorem modifyOperand_of_cell {v : Byte} (hcell : s.cell s.dp = some v) :
    ∃ t, modifyOperand f s = .next t ∧ t.cell s.dp = some (f v) ∧ SameCellsBut s.dp s t ∧
      SameMemoryBut (phys s.dp) s t ∧ t = { s with tape := t.tape, ip := s.ip + 1, bud := s.bud - 1 } := by
  obtain ⟨hin, rfl⟩ := cell_eq_some.mp hcell
  obtain ⟨hwritten, hcells, hbytes⟩ :=
    cell_and_frame_of_setTape hin (retire_tape (s.setTape s.dp (f (s.tapeAt s.dp))))
  exact ⟨_, modifyOperand_of_inTape hin, hwritten, hcells, hbytes, rfl⟩

/-- With dp outside the tape only `status` changes (R100, R101, R178). -/
theorem modifyOperand_of_outside (h : s.dp < -25000 ∨ 24999 < s.dp) :
    modifyOperand f s = .next { s with status := .faultTape } := by
  rw [modifyOperand_eq, if_neg (not_inTape_of_outside h)]
  rfl

/-- Where `g` undoes `f`, a read-modify-write with `g` undoes one with `f`: the second reads what the first wrote. -/
theorem modifyOperand_restores (hgf : ∀ v, g (f v) = v) (hin : InTape s.dp) :
    ∃ t u, modifyOperand f s = .next t ∧ modifyOperand g t = .next u ∧
      u.cell s.dp = s.cell s.dp ∧ ∀ a, Memory.read u.tape a = Memory.read s.tape a := by
  have hread : (s.setTape s.dp (f (s.tapeAt s.dp))).retire.tapeAt s.dp = f (s.tapeAt s.dp) :=
    tapeAt_setTape_self s s.dp (f (s.tapeAt s.dp))
  refine ⟨_, _, modifyOperand_of_inTape hin, modifyOperand_of_inTape (s := State.retire _) hin, ?_⟩
  rw [retire_dp, setTape_dp, hread, hgf]
  have hbytes := read_setTape_restored s s.dp (f (s.tapeAt s.dp))
  exact ⟨cell_congr_read hbytes s.dp, hbytes⟩

end ModifyOperand

/-! ### The two functions, and the instructions -/

/-- Byte addition is modulo 256 (R102). -/
theorem toNat_increment (v : Byte) : (increment v).toNat = (v.toNat + 1) % 256 := BitVec.toNat_add v 1

/-- To take 1 is to add 255 modulo 256 (R102). -/
theorem toNat_decrement (v : Byte) : (decrement v).toNat = (v.toNat + 255) % 256 := by
  rw [decrement, BitVec.toNat_sub, Nat.add_comm]
  rfl

theorem decrement_increment (v : Byte) : decrement (increment v) = v := BitVec.add_sub_cancel v 1

theorem increment_decrement (v : Byte) : increment (decrement v) = v := BitVec.sub_add_cancel v 1

theorem exec_inc (s : State) : exec .inc s = modifyOperand increment s := rfl

theorem exec_dec (s : State) : exec .dec s = modifyOperand decrement s := rfl

/-- Settles O21: `+` is the read-modify-write with `increment`. -/
theorem incrementAddsOneModulo256 : Obligations.IncrementAddsOneModulo256 := by
  unfold Obligations.IncrementAddsOneModulo256
  simp only [exec_inc]
  refine ⟨decodeChar_encodeChar .inc rfl, fun s v _ hcell => ?_, fun s hout => modifyOperand_of_outside hout⟩
  obtain ⟨t, hexec, hwritten, hframe⟩ := modifyOperand_of_cell hcell
  exact ⟨t, increment v, hexec, hwritten, toNat_increment v, hframe⟩

/-- Settles O22: `-` is the read-modify-write with `decrement`. -/
theorem decrementTakesOneModulo256 : Obligations.DecrementTakesOneModulo256 := by
  unfold Obligations.DecrementTakesOneModulo256
  simp only [exec_dec]
  refine ⟨decodeChar_encodeChar .dec rfl, fun s v _ hcell => ?_, fun s hout => modifyOperand_of_outside hout⟩
  obtain ⟨t, hexec, hwritten, hframe⟩ := modifyOperand_of_cell hcell
  exact ⟨t, decrement v, hexec, hwritten, toNat_decrement v, hframe⟩

/-- Settles O23: `increment` and `decrement` undo each other on every byte, and so do the read-modify-writes. -/
theorem incrementDecrementInverse : Obligations.IncrementDecrementInverse := by
  unfold Obligations.IncrementDecrementInverse
  simp only [exec_inc, exec_dec]
  refine ⟨fun s hin => ⟨?_, ?_⟩, rfl, rfl⟩
  · exact modifyOperand_restores decrement_increment hin
  · exact modifyOperand_restores increment_decrement hin

end Sys2Proof.Proofs

/-! Byte input and output (42_io.md): `.` appends the cell at dp, and `,` stores what `InTake` gives there. -/

namespace Sys2Proof.Proofs

open Sys2Proof.Machine Sys2Proof.Laws

/-- With dp outside the tape, an instruction that raises TapeIndexOutOfRange there changes only `status` (R171, R178). -/
theorem exec_of_outside {i : Instr} {s : State} (h : s.dp < -25000 ∨ 24999 < s.dp)
    (hraises : ¬ InTape s.dp → Raises i s .tapeIndexOutOfRange) :
    exec i s = .next { s with status := .faultTape } :=
  exec_of_raises (hraises (not_inTape_of_outside h))

/-- An append to the output and the common tail write out, ip and bud, and nothing else (R110, R148, R149). -/
theorem retire_outAppend (s : State) (v : Byte) :
    (s.outAppend v).retire = { s with out := s.out ++ [v], ip := s.ip + 1, bud := s.bud - 1 } := rfl

/-- Settles O24: the cell read is the byte appended, whatever its value. -/
theorem outputAppendsCell : Obligations.OutputAppendsCell := by
  unfold Obligations.OutputAppendsCell
  refine ⟨decodeChar_encodeChar .output rfl, fun s v _ hcell => ?_, fun s hout => exec_of_outside hout .output⟩
  obtain ⟨hin, rfl⟩ := cell_eq_some.mp hcell
  rw [exec_of_effect (.output hin), retire_outAppend]

/-- Inside the tape `,` puts the byte that `InTake` gives in the cell at dp; all else it does is to move the cursor as
`InTake` does, and the common tail (R54, R111). -/
theorem exec_input_of_inTake {s u : State} {v : Byte} (hin : InTape s.dp) (htake : s.inTake = (v, u)) :
    ∃ t, exec .input s = .next t ∧ t.cell s.dp = some v ∧ SameCellsBut s.dp s t ∧ SameMemoryBut (phys s.dp) s t ∧
      t = { u with tape := t.tape, ip := u.ip + 1, bud := u.bud - 1 } := by
  have hexec := exec_of_effect (.input hin)
  rw [htake] at hexec
  have hkept : u.tape = s.tape := by rw [← inTake_tape s, htake]
  have htape : (u.setTape s.dp v).retire.tape = (s.setTape s.dp v).tape :=
    congrArg (Memory.write · (phys s.dp) v) hkept
  obtain ⟨hwritten, hcells, hbytes⟩ := cell_and_frame_of_setTape hin htape
  exact ⟨_, hexec, hwritten, hcells, hbytes, rfl⟩

/-- Settles O25: the two cases of `InTake`, a byte left and none, and the bounds test before either. -/
theorem inputStoresNextByteOrZero : Obligations.InputStoresNextByteOrZero := by
  unfold Obligations.InputStoresNextByteOrZero
  refine ⟨decodeChar_encodeChar .input rfl, fun s v _ hin hbyte => ?_, fun s _ hin hend => ?_,
    fun s hout => exec_of_outside hout .input⟩
  · exact exec_input_of_inTake hin (inTake_of_some hbyte)
  · exact exec_input_of_inTake hin (inTake_of_none (List.getElem?_eq_none hend))

end Sys2Proof.Proofs

/-! Loops and the jump engine (43_loops_and_jump_engine.md): a scan goes on to the first of the characters beside the
bracket at which the nesting counter is balanced, and two brackets with a balanced text between them are each other's
partner. -/

namespace Sys2Proof.Proofs

open Sys2Proof.Machine Sys2Proof.Laws

/-! ### One scan for both directions

The scans differ in which bracket raises the counter, `up`, and which lowers it, `down`, and in how they name the place
where they land: it is counted here by the characters passed before it. -/

section FirstBalance

variable {up down : Byte} {c : Nat}

/-- The nesting counter after the character `ch` (R122, R123). -/
def nest (up down : Byte) (c : Nat) (ch : Byte) : Nat :=
  if ch = up then c + 1 else if ch = down then c - 1 else c

/-- The first `k + 1` characters take the counter from `c` to 0: `c` more of them lower it than raise it. -/
def Balances (up down : Byte) (c : Nat) (l : List Byte) (k : Nat) : Prop :=
  k < l.length ∧ (l.take (k + 1)).count up + c = (l.take (k + 1)).count down

/-- How many characters a scan passes before the one at which the counter reaches 0. -/
def firstBalance (up down : Byte) : List Byte → Nat → Option Nat
  | [], _ => none
  | ch :: rest, c =>
    if nest up down c ch = 0 then some 0 else (firstBalance up down rest (nest up down c ch)).map (· + 1)

/-- One character changes the counter as it changes the difference of the counts: the counter is not 0, so that the
subtraction in `nest` is exact. -/
theorem count_cons_add_eq_iff (hne : up ≠ down) (hc : c ≠ 0) (ch : Byte) (l : List Byte) :
    (ch :: l).count up + c = (ch :: l).count down ↔ l.count up + nest up down c ch = l.count down := by
  by_cases hup : ch = up
  · subst hup
    rw [List.count_cons_self, List.count_cons_of_ne hne, nest, if_pos rfl]
    omega
  · by_cases hdown : ch = down
    · subst hdown
      rw [List.count_cons_of_ne hup, List.count_cons_self, nest, if_neg hup, if_pos rfl]
      omega
    · rw [List.count_cons_of_ne hup, List.count_cons_of_ne hdown, nest, if_neg hup, if_neg hdown]

theorem not_balances_nil (k : Nat) : ¬ Balances up down c [] k := fun ⟨hk, _⟩ => Nat.not_lt_zero k hk

theorem balances_cons_zero (hne : up ≠ down) (hc : c ≠ 0) (ch : Byte) (rest : List Byte) :
    Balances up down c (ch :: rest) 0 ↔ nest up down c ch = 0 := by
  have hstep := count_cons_add_eq_iff hne hc ch []
  simpa [Balances] using hstep

theorem balances_cons_succ (hne : up ≠ down) (hc : c ≠ 0) (ch : Byte) (rest : List Byte) (k : Nat) :
    Balances up down c (ch :: rest) (k + 1) ↔ Balances up down (nest up down c ch) rest k := by
  rw [Balances, Balances, List.take_succ_cons, List.length_cons, Nat.succ_lt_succ_iff,
    count_cons_add_eq_iff hne hc]

/-- The scan passes the characters before the first balance. -/
theorem firstBalance_eq_some_iff (hne : up ≠ down) {l : List Byte} {k : Nat} (hc : c ≠ 0) :
    firstBalance up down l c = some k ↔
      Balances up down c l k ∧ ∀ j < k, ¬ Balances up down c l j := by
  induction l generalizing c k with
  | nil => exact ⟨nofun, fun ⟨hk, _⟩ => absurd hk (not_balances_nil k)⟩
  | cons ch rest ih =>
    have hzero := balances_cons_zero hne hc ch rest
    rw [firstBalance]
    by_cases hnest : nest up down c ch = 0
    · rw [if_pos hnest]
      cases k with
      | zero => simp [hzero, hnest]
      | succ k => exact ⟨nofun, fun ⟨_, hfirst⟩ => absurd (hzero.mpr hnest) (hfirst 0 k.succ_pos)⟩
    · rw [if_neg hnest]
      cases k with
      | zero => simp [hzero, hnest]
      | succ k =>
        simp only [Option.map_eq_some_iff, Nat.add_right_cancel_iff, exists_eq_right, ih hnest,
          Nat.forall_lt_succ_left, balances_cons_succ hne hc, hzero, hnest, not_false_eq_true, true_and]

/-- The scan runs off the end exactly when nothing balances: of the places that do there is a first. -/
theorem firstBalance_eq_none_iff (hne : up ≠ down) {l : List Byte} (hc : c ≠ 0) :
    firstBalance up down l c = none ↔ ∀ k, ¬ Balances up down c l k := by
  classical
  rw [← not_exists, Option.eq_none_iff_forall_ne_some]
  constructor
  · intro hnone hex
    exact hnone _ ((firstBalance_eq_some_iff hne hc).mpr ⟨Nat.find_spec hex, fun _ => Nat.find_min hex⟩)
  · intro hnex k hk
    exact hnex ⟨k, ((firstBalance_eq_some_iff hne hc).mp hk).1⟩

end FirstBalance

/-! ### The two scans of the model are that scan -/

theorem open_ne_close : (0x5B : Byte) ≠ 0x5D := by decide

theorem nestForward_eq_nest (c : Nat) (ch : Byte) : nestForward c (decodeChar ch) = nest 0x5B 0x5D c ch := by
  unfold nest
  split
  · next hopen => rw [hopen, nestForward_open]
  · next hopen =>
    split
    · next hclose => rw [hclose, nestForward_close]
    · next hclose => exact nestForward_other c hopen hclose

theorem nestBackward_eq_nest (c : Nat) (ch : Byte) : nestBackward c (decodeChar ch) = nest 0x5D 0x5B c ch := by
  unfold nest
  split
  · next hclose => rw [hclose, nestBackward_close]
  · next hclose =>
    split
    · next hopen => rw [hopen, nestBackward_open]
    · next hopen => exact nestBackward_other c hopen hclose

theorem scanForwardFrom_eq_map (rest : List Byte) (p c : Nat) :
    scanForwardFrom rest p c = (firstBalance 0x5B 0x5D rest c).map (p + ·) := by
  induction rest generalizing p c with
  | nil => rfl
  | cons ch rest ih =>
    rw [scanForwardFrom, firstBalance, nestForward_eq_nest]
    split
    · rfl
    · rw [ih, Option.map_map]
      congr 1
      funext k
      exact Nat.add_right_comm p 1 k

theorem scanBackwardFrom_eq_map (rest : List Byte) (c : Nat) :
    scanBackwardFrom rest c = (firstBalance 0x5D 0x5B rest c).map (rest.length - 1 - ·) := by
  induction rest generalizing c with
  | nil => rfl
  | cons ch rest ih =>
    rw [scanBackwardFrom, firstBalance, nestBackward_eq_nest]
    split
    · rfl
    · rw [ih, Option.map_map]
      congr 1
      funext k
      simp only [Function.comp_apply, List.length_cons]
      omega

section Scans

variable {text : List Byte} {i q : Nat}

theorem scanForward_eq_ofIndex (text : List Byte) (i : Nat) :
    scanForward text i = .ofIndex ((firstBalance 0x5B 0x5D (text.drop (i + 1)) 1).map (i + 1 + ·)) := by
  rw [scanForward, if_neg (by omega), scanForwardFrom_eq_map]
  rfl

theorem scanBackward_eq_ofIndex (hi : i < text.length) :
    scanBackward text i = .ofIndex ((firstBalance 0x5D 0x5B (text.take i).reverse 1).map (i - 1 - ·)) := by
  have hlen : (text.take i).reverse.length = i := by simp [hi.le]
  rw [scanBackward, if_neg (by omega), scanBackwardFrom_eq_map, Int.toNat_natCast, hlen]

/-! ### What they find is the partner -/

/-- The characters from i + 1 on balance at the `k`-th exactly when the text does at that one's index. -/
theorem forwardBalanced_iff_balances (k : Nat) :
    ForwardBalanced text i (i + 1 + k) ↔ Balances 0x5B 0x5D 1 (text.drop (i + 1)) k := by
  have hchars : charsBetween text (i + 1) (i + 1 + k + 1) = (text.drop (i + 1)).take (k + 1) := by
    rw [charsBetween, Nat.add_assoc _ k, Nat.add_sub_cancel_left]
  rw [ForwardBalanced, Balances, hchars, List.length_drop, opens, closes]
  omega

/-- The characters before i, nearest first, balance at the `k`-th exactly when the text does at that one's index. -/
theorem backwardBalanced_iff_balances (hi : i < text.length) {k : Nat} (hk : q + k + 1 = i) :
    BackwardBalanced text i q ↔ Balances 0x5D 0x5B 1 (text.take i).reverse k := by
  have hchars : (text.take i).reverse.take (k + 1) = (charsBetween text q i).reverse := by
    have hq : (text.take i).length - (k + 1) = q := by
      rw [List.length_take, min_eq_left hi.le]
      omega
    rw [List.take_reverse, hq, List.drop_take, charsBetween]
  rw [BackwardBalanced, Balances, hchars, List.length_reverse, List.length_take, List.count_reverse,
    List.count_reverse, opens, closes]
  omega

/-- The forward scan lands on the partner (R122). -/
theorem scanForward_eq_found_iff : scanForward text i = .found q ↔ ForwardPartner text i q := by
  rw [scanForward_eq_ofIndex, ofIndex_eq_found, Option.map_eq_some_iff]
  simp only [firstBalance_eq_some_iff open_ne_close one_ne_zero, ← forwardBalanced_iff_balances]
  constructor
  · rintro ⟨k, ⟨hbal, hleast⟩, rfl⟩
    refine ⟨hbal, fun r hr hbalr => ?_⟩
    obtain ⟨j, rfl⟩ := Nat.exists_eq_add_of_le (Nat.succ_le_of_lt hbalr.1)
    exact hleast j (by omega) hbalr
  · rintro ⟨hbal, hleast⟩
    obtain ⟨k, rfl⟩ := Nat.exists_eq_add_of_le (Nat.succ_le_of_lt hbal.1)
    exact ⟨k, ⟨hbal, fun j hj => hleast _ (Nat.add_lt_add_left hj _)⟩, rfl⟩

/-- The forward scan leaves the text exactly when there is no partner (R122, R172). -/
theorem scanForward_eq_unmatched_iff : scanForward text i = .unmatched ↔ NoForwardPartner text i := by
  rw [scanForward_eq_ofIndex, ofIndex_eq_unmatched, Option.map_eq_none_iff,
    firstBalance_eq_none_iff open_ne_close one_ne_zero]
  simp only [← forwardBalanced_iff_balances]
  constructor
  · intro hnone q _ hbal
    obtain ⟨k, rfl⟩ := Nat.exists_eq_add_of_le (Nat.succ_le_of_lt hbal.1)
    exact hnone k hbal
  · exact fun hnone k hbal => hnone _ hbal.2.1 hbal

/-- The backward scan lands on the partner (R123). -/
theorem scanBackward_eq_found_iff (hi : i < text.length) :
    scanBackward text i = .found q ↔ BackwardPartner text i q := by
  rw [scanBackward_eq_ofIndex hi, ofIndex_eq_found, Option.map_eq_some_iff]
  simp only [firstBalance_eq_some_iff open_ne_close.symm one_ne_zero]
  constructor
  · rintro ⟨k, ⟨hbal, hfirst⟩, rfl⟩
    have hk : k < i := by simpa [hi.le] using hbal.1
    refine ⟨(backwardBalanced_iff_balances hi (by omega)).mpr hbal, fun r hri hr hbalr => ?_⟩
    exact hfirst (i - 1 - r) (by omega) ((backwardBalanced_iff_balances hi (by omega)).mp hbalr)
  · rintro ⟨hbal, hgreatest⟩
    have hq : q < i := hbal.1
    refine ⟨i - 1 - q, ⟨(backwardBalanced_iff_balances hi (by omega)).mp hbal, fun j hj hbalj => ?_⟩, by omega⟩
    exact hgreatest (i - 1 - j) (by omega) (by omega) ((backwardBalanced_iff_balances hi (by omega)).mpr hbalj)

/-- The backward scan leaves the text exactly when there is no partner (R123, R172). -/
theorem scanBackward_eq_unmatched_iff (hi : i < text.length) :
    scanBackward text i = .unmatched ↔ NoBackwardPartner text i := by
  rw [scanBackward_eq_ofIndex hi, ofIndex_eq_unmatched, Option.map_eq_none_iff,
    firstBalance_eq_none_iff open_ne_close.symm one_ne_zero]
  constructor
  · intro hnone q hq hbal
    exact hnone (i - 1 - q) ((backwardBalanced_iff_balances hi (by omega)).mp hbal)
  · intro hnone k hbal
    have hk : k < i := by simpa [hi.le] using hbal.1
    exact hnone (i - 1 - k) (by omega) ((backwardBalanced_iff_balances hi (by omega)).mpr hbal)

end Scans

/-- Settles O26: the forward scan is the first balance of the characters after i. -/
theorem scanForwardFindsPartner : Obligations.ScanForwardFindsPartner := by
  unfold Obligations.ScanForwardFindsPartner
  exact fun text i _ => ⟨fun q => scanForward_eq_found_iff, scanForward_eq_unmatched_iff,
    fun q hscan => (scanForward_lands hscan).2.2⟩

/-- Settles O27: the backward scan is the first balance of the characters before i, nearest first. -/
theorem scanBackwardFindsPartner : Obligations.ScanBackwardFindsPartner := by
  unfold Obligations.ScanBackwardFindsPartner
  exact fun text i hi => ⟨fun q => scanBackward_eq_found_iff hi, scanBackward_eq_unmatched_iff hi,
    fun q hscan => (scanBackward_lands hscan).2.2⟩

/-! ### The two scans undo each other -/

section Undo

variable {text : List Byte} {i q : Nat}

theorem charsBetween_append {a b d : Nat} (hab : a ≤ b) (hbd : b ≤ d) :
    charsBetween text a b ++ charsBetween text b d = charsBetween text a d := by
  have hdrop : text.drop b = (text.drop a).drop (b - a) := by rw [List.drop_drop, Nat.add_sub_cancel' hab]
  have hlen : d - a = (b - a) + (d - b) := by omega
  rw [charsBetween, charsBetween, charsBetween, hdrop, hlen, List.take_add]

theorem opens_charsBetween_add {a b d : Nat} (hab : a ≤ b) (hbd : b ≤ d) :
    opens (charsBetween text a b) + opens (charsBetween text b d) = opens (charsBetween text a d) := by
  rw [← charsBetween_append hab hbd, opens, opens, opens, List.count_append]

theorem closes_charsBetween_add {a b d : Nat} (hab : a ≤ b) (hbd : b ≤ d) :
    closes (charsBetween text a b) + closes (charsBetween text b d) = closes (charsBetween text a d) := by
  rw [← charsBetween_append hab hbd, closes, closes, closes, List.count_append]

theorem charsBetween_succ {a : Nat} {ch : Byte} (h : text[a]? = some ch) : charsBetween text a (a + 1) = [ch] := by
  obtain ⟨ha, rfl⟩ := List.getElem?_eq_some_iff.mp h
  rw [charsBetween, Nat.add_sub_cancel_left, List.drop_eq_getElem_cons ha]
  rfl

theorem charsBetween_cons {a b : Nat} {ch : Byte} (h : text[a]? = some ch) (hab : a < b) :
    charsBetween text a b = ch :: charsBetween text (a + 1) b := by
  rw [← charsBetween_append a.le_succ hab, charsBetween_succ h, List.singleton_append]

theorem charsBetween_concat {a b : Nat} {ch : Byte} (h : text[b]? = some ch) (hab : a ≤ b) :
    charsBetween text a (b + 1) = charsBetween text a b ++ [ch] := by
  rw [← charsBetween_append hab b.le_succ, charsBetween_succ h]

/-- As many brackets open as close strictly between i and q. -/
abbrev InsideBalanced (text : List Byte) (i q : Nat) : Prop :=
  i < q ∧ opens (charsBetween text (i + 1) q) = closes (charsBetween text (i + 1) q)

/-- Up to a `]` the brackets balance when those before it do (R122). -/
theorem forwardBalanced_iff_insideBalanced (hq : text[q]? = some 0x5D) :
    ForwardBalanced text i q ↔ InsideBalanced text i q := by
  obtain ⟨hlt, -⟩ := List.getElem?_eq_some_iff.mp hq
  refine and_congr_right fun hiq => ?_
  rw [charsBetween_concat hq hiq]
  simp [opens, closes, hlt]

/-- Down to a `[` the brackets balance when those after it do (R123). -/
theorem backwardBalanced_iff_insideBalanced (hi : text[i]? = some 0x5B) :
    BackwardBalanced text q i ↔ InsideBalanced text i q := by
  refine and_congr_right fun hiq => ?_
  rw [charsBetween_cons hi hiq]
  simp [opens, closes, eq_comm]

/-- Cut what is balanced between i and q after p: one `]` too many in the front part is one `[` too many in the rest. -/
theorem forwardBalanced_iff_backwardBalanced_succ {p : Nat} (hq : q < text.length) (hinside : InsideBalanced text i q)
    (hip : i ≤ p) (hpq : p + 1 ≤ q) : ForwardBalanced text i p ↔ BackwardBalanced text q (p + 1) := by
  obtain ⟨hiq, hcount⟩ := hinside
  have hopens := opens_charsBetween_add (text := text) (Nat.add_le_add_right hip 1) hpq
  have hcloses := closes_charsBetween_add (text := text) (Nat.add_le_add_right hip 1) hpq
  obtain rfl | hip' := hip.eq_or_lt
  · omega
  · obtain rfl | hpq' := hpq.eq_or_lt
    · omega
    · omega

/-- Two brackets are each other's partner or neither's: where one scan could have landed before, so could the other. -/
theorem forwardPartner_iff_backwardPartner (hi : text[i]? = some 0x5B) (hq : text[q]? = some 0x5D) :
    ForwardPartner text i q ↔ BackwardPartner text q i := by
  obtain ⟨hlt, -⟩ := List.getElem?_eq_some_iff.mp hq
  rw [ForwardPartner, BackwardPartner, forwardBalanced_iff_insideBalanced hq, backwardBalanced_iff_insideBalanced hi]
  refine and_congr_right fun hinside => ⟨fun hleast r hrq hir hbal => ?_, fun hgreatest p hpq hbal => ?_⟩
  · obtain ⟨p, rfl⟩ := Nat.exists_eq_add_one_of_ne_zero (Nat.ne_zero_of_lt hir)
    have hpq := Nat.lt_of_succ_lt hrq
    exact hleast p hpq <|
      (forwardBalanced_iff_backwardBalanced_succ hlt hinside (Nat.le_of_lt_succ hir) hpq).mpr hbal
  · have hip := hbal.1.le
    have hbal' := (forwardBalanced_iff_backwardBalanced_succ hlt hinside hip hpq).mp hbal
    exact hgreatest (p + 1) hbal'.1 (Nat.lt_succ_of_le hip) hbal'

end Undo

/-- Settles O28: a scan lands on a bracket of the other kind, and then each is the other's partner. -/
theorem scansUndoEachOther : Obligations.ScansUndoEachOther := by
  unfold Obligations.ScansUndoEachOther
  refine ⟨fun text i q hi hscan => ?_, fun text i q hi hscan => ?_⟩
  · obtain ⟨-, hlt, hq⟩ := scanForward_lands hscan
    rw [scanBackward_eq_found_iff hlt, ← forwardPartner_iff_backwardPartner hi hq]
    exact scanForward_eq_found_iff.mp hscan
  · obtain ⟨-, -, hq⟩ := scanBackward_lands hscan
    obtain ⟨hlt, -⟩ := List.getElem?_eq_some_iff.mp hi
    rw [scanForward_eq_found_iff, forwardPartner_iff_backwardPartner hq hi]
    exact (scanBackward_eq_found_iff hlt).mp hscan

/-! ### The instructions -/

/-- A jump and the common tail write ip and bud, and nothing else (R124, R148, R149). -/
theorem retire_setIp (s : State) (q : Int) : (s.setIp q).retire = { s with ip := q + 1, bud := s.bud - 1 } := rfl

/-- Settles O29: the five cases of `[`, with what its scan finds said as the partner. -/
theorem loopOpenJumpsOnZero : Obligations.LoopOpenJumpsOnZero := by
  unfold Obligations.LoopOpenJumpsOnZero
  refine ⟨decodeChar_encodeChar .loopOpen rfl, fun s v _ hcell hv => ?_, fun s i q _ hip hcell hpartner => ?_,
    fun s i _ hip hcell hnone => ?_, fun s hout => exec_of_outside hout .loopOpen⟩
  · obtain ⟨hin, rfl⟩ := cell_eq_some.mp hcell
    exact exec_of_effect (.openFall hin hv)
  · obtain ⟨hin, hzero⟩ := cell_eq_some.mp hcell
    have hscan : scanForward s.prog s.ip = .found q := hip ▸ scanForward_eq_found_iff.mpr hpartner
    rw [exec_of_effect (.openJump hin hzero hscan), retire_setIp]
  · obtain ⟨hin, hzero⟩ := cell_eq_some.mp hcell
    have hscan : scanForward s.prog s.ip = .unmatched := hip ▸ scanForward_eq_unmatched_iff.mpr hnone
    exact exec_of_raises (.openScan hin hzero hscan)

/-- Settles O30: the five cases of `]`, with what its scan finds said as the partner. -/
theorem loopCloseJumpsOnNonzero : Obligations.LoopCloseJumpsOnNonzero := by
  unfold Obligations.LoopCloseJumpsOnNonzero
  refine ⟨decodeChar_encodeChar .loopClose rfl, fun s _ hcell => ?_,
    fun s v i q ⟨_, _, hlt, _⟩ hip hcell hv hpartner => ?_, fun s v i ⟨_, _, hlt, _⟩ hip hcell hv hnone => ?_,
    fun s hout => exec_of_outside hout .loopClose⟩
  · obtain ⟨hin, hzero⟩ := cell_eq_some.mp hcell
    exact exec_of_effect (.closeFall hin hzero)
  · obtain ⟨hin, rfl⟩ := cell_eq_some.mp hcell
    have hscan : scanBackward s.prog s.ip = .found q :=
      hip ▸ (scanBackward_eq_found_iff (by omega)).mpr hpartner
    rw [exec_of_effect (.closeJump hin hv hscan), retire_setIp]
  · obtain ⟨hin, rfl⟩ := cell_eq_some.mp hcell
    have hscan : scanBackward s.prog s.ip = .unmatched :=
      hip ▸ (scanBackward_eq_unmatched_iff (by omega)).mpr hnone
    exact exec_of_raises (.closeScan hin hv hscan)

end Sys2Proof.Proofs

/-! NOP (44_noop.md): a NOP's own effect is none, so the common tail is all that it does. -/

namespace Sys2Proof.Proofs

open Sys2Proof.Machine Sys2Proof.Laws

/-- A NOP completes in every state: its own effect leaves the state as it is, with no access to the tape (R140). -/
theorem exec_nop (c : Byte) (s : State) :
    exec (.nop c) s = .next { s with ip := s.ip + 1, bud := s.bud - 1 } :=
  exec_of_effect (.nop c s)

/-- Settles O31: the six ranges are the NOP space, and a NOP completes in every state, and so also where bud > 0. -/
theorem nopOnlyAdvances : Obligations.NopOnlyAdvances := by
  unfold Obligations.NopOnlyAdvances
  refine ⟨fun c hranges => ?_, fun c s _ => exec_nop c s⟩
  exact decodeChar_nop c ((inNopSpace_iff c).mpr hranges)

end Sys2Proof.Proofs

/-! The run loop (45_run_loop.md): what a step answers in each case of R145 and R146, what an instruction costs, that a
run ends, and what the host reads of it. -/

namespace Sys2Proof.Proofs

open Sys2Proof.Machine Sys2Proof.Laws

/-! ### What a step answers: the other directions of `step_next` -/

section StepCases

variable {s : State}

theorem step_of_not_run (hrun : s.status ≠ .run) : step s = .next s := by
  rw [step_eq, if_neg hrun]

theorem step_of_atEnd (hrun : s.status = .run) (hend : s.prog.length ≤ s.ip) :
    step s = .next (s.setStatus .haltEnd) := by
  rw [step_eq, if_pos hrun, if_pos hend]

theorem step_of_spent (hrun : s.status = .run) (hip : s.ip < s.prog.length) (hbud : s.bud = 0) :
    step s = .next (s.setStatus .haltBudget) := by
  rw [step_eq, if_pos hrun, if_neg hip.not_ge, if_pos hbud]

theorem step_of_char {c : Byte} (hrun : s.status = .run) (hbud : 0 < s.bud) (hc : progRead s.prog s.ip = some c) :
    step s = exec (decodeChar c) s := by
  have hip : s.ip < s.prog.length := (progRead_eq_some hc).2.1
  rw [step_eq, if_pos hrun, if_neg hip.not_ge, if_neg hbud.ne', dispatch_of_some exec hc]

end StepCases

/-- Settles O13: the character at the index n of the text is the one that the step fetches. -/
theorem stepRunsDecodedInstruction : Obligations.StepRunsDecodedInstruction := by
  unfold Obligations.StepRunsDecodedInstruction
  intro s n c hrun hip hc hbud
  have hread : progRead s.prog s.ip = some c := by rw [hip, progRead_natCast, hc]
  exact step_of_char hrun hbud hread

/-- Settles O14: the two halting cases of a step. -/
theorem stopTestsInOrder : Obligations.StopTestsInOrder := by
  unfold Obligations.StopTestsInOrder
  exact fun s hrun => ⟨step_of_atEnd hrun, step_of_spent hrun⟩

/-- Settles O15: the resting case of a step. -/
theorem noStepUnlessRunning : Obligations.NoStepUnlessRunning := by
  unfold Obligations.NoStepUnlessRunning
  exact fun s => step_of_not_run

/-! ### Totality -/

/-- With ip in the text or at its end no scan begins outside it, so that an instruction answers a next state. -/
theorem exec_next_of_ip (i : Instr) {s : State} (hnonneg : 0 ≤ s.ip) (hle : s.ip ≤ s.prog.length) :
    ∃ t, exec i s = .next t := by
  obtain ⟨u, heffect⟩ | ⟨e, hraises⟩ | hstops := effect_or_raises_or_stops i s
  · exact ⟨_, exec_of_effect heffect⟩
  · exact ⟨_, exec_of_raises hraises⟩
  · obtain ⟨houtside, -⟩ := bracket_outside_of_stops hstops
    omega

/-- A step is total where ip is in the text or at its end (R145, R53). -/
theorem step_total {s : State} (hnonneg : 0 ≤ s.ip) (hle : s.ip ≤ s.prog.length) : ∃ t, step s = .next t := by
  by_cases hrun : s.status = .run
  · obtain hend | hip := le_or_gt (s.prog.length : Int) s.ip
    · exact ⟨_, step_of_atEnd hrun hend⟩
    · obtain hbud | hbud := Nat.eq_zero_or_pos s.bud
      · exact ⟨_, step_of_spent hrun hip hbud⟩
      · obtain ⟨c, hc⟩ := progRead_isSome hnonneg hip
        rw [step_of_char hrun hbud hc]
        exact exec_next_of_ip _ hnonneg hle
  · exact ⟨_, step_of_not_run hrun⟩

/-- Settles O5: the invariant keeps ip where `step_total` wants it. -/
theorem stepAnswersNextUnderInvariant : Obligations.StepAnswersNextUnderInvariant := by
  unfold Obligations.StepAnswersNextUnderInvariant
  exact fun s hs => step_total hs.ipNonneg hs.ipLe

/-! ### Faults and costs -/

/-- From RUN, the status tells the two outcomes of `exec_next` apart: a completed instruction leaves the core running, a
fault does not (R148, R150). -/
theorem exec_next_of_run {i : Instr} {s t : State} (hrun : s.status = .run) (h : exec i s = .next t) :
    (t.status = .run ∧ ∃ u, Effect i s u ∧ t = u.retire) ∨ (t.status ≠ .run ∧ ∃ e, t = s.takeFault e) := by
  obtain ⟨u, heffect, rfl⟩ | ⟨e, -, rfl⟩ := exec_next h
  · obtain ⟨-, -, -, -, hstatus⟩ := heffect.keeps
    exact .inl ⟨hstatus.trans hrun, u, heffect, rfl⟩
  · exact .inr ⟨trap_status_ne_run e, e, rfl⟩

theorem trap_status_eq (e : Trap) : e.status = .faultTape ∨ e.status = .faultBracket := by
  cases e with
  | tapeIndexOutOfRange => exact .inl rfl
  | unmatchedBracket => exact .inr rfl

/-- Settles O34: an instruction that leaves RUN has taken a fault, and then the core rests. -/
theorem faultChangesStatusOnly : Obligations.FaultChangesStatusOnly := by
  unfold Obligations.FaultChangesStatusOnly
  intro i s t hrun h hleft
  obtain ⟨hstays, -⟩ | ⟨-, e, rfl⟩ := exec_next_of_run hrun h
  · exact absurd hstays hleft
  · exact ⟨trap_status_eq e, rfl, step_of_not_run hleft⟩

/-- The common tail after an own effect takes one unit of a budget that is not spent (R149). -/
theorem bud_retire_of_effect {i : Instr} {s u : State} (h : Effect i s u) (hbud : 0 < s.bud) :
    u.retire.bud + 1 = s.bud := by
  obtain ⟨-, hb, -⟩ := h.keeps
  rw [retire_bud, hb]
  omega

/-- Settles O16: only the common tail writes bud, and neither a fault nor a halt reaches it. -/
theorem eachInstructionCostsOne : Obligations.EachInstructionCostsOne := by
  unfold Obligations.EachInstructionCostsOne
  refine ⟨fun i s t hrun hbud h => ?_, fun s t hrun hstop h => ?_⟩
  · obtain ⟨hstays, u, heffect, rfl⟩ | ⟨hleft, e, rfl⟩ := exec_next_of_run hrun h
    · have hcost := bud_retire_of_effect heffect hbud
      exact ⟨fun _ => ⟨hcost, completed_retire_of_effect heffect hbud⟩, absurd hstays⟩
    · exact ⟨fun hstays => absurd hstays hleft, fun _ => rfl⟩
  · obtain ⟨hrest, -⟩ | ⟨-, -, rfl⟩ | ⟨-, -, -, rfl⟩ | ⟨c, -, hip, hbud, -, -⟩ := step_next h
    · exact absurd hrun hrest
    · rfl
    · rfl
    · omega

/-! ### Every run ends -/

theorem terminal_iff (v : Status) :
    v.terminal = true ↔ v = .haltEnd ∨ v = .haltBudget ∨ v = .faultTape ∨ v = .faultBracket := by
  cases v <;> decide

theorem ne_run_of_terminal {v : Status} (h : v.terminal = true) : v ≠ .run := by
  rintro rfl
  cases h

theorem trap_status_terminal (e : Trap) : e.status.terminal = true :=
  (terminal_iff _).mpr (.inr (.inr (trap_status_eq e)))

/-- The measure of a run: a step from RUN ends it, or takes one unit of the budget (R151). -/
theorem step_ends_or_costs_one {s t : State} (hrun : s.status = .run) (h : step s = .next t) :
    t.status.terminal = true ∨ (t.status = .run ∧ t.bud + 1 = s.bud) := by
  obtain ⟨hrest, -⟩ | ⟨-, -, rfl⟩ | ⟨-, -, -, rfl⟩ | ⟨c, -, -, hbud, -, hexec⟩ := step_next h
  · exact absurd hrun hrest
  · exact .inl rfl
  · exact .inl rfl
  · obtain ⟨hstays, u, heffect, rfl⟩ | ⟨-, e, rfl⟩ := exec_next_of_run hrun hexec
    · exact .inr ⟨hstays, bud_retire_of_effect heffect hbud⟩
    · exact .inl (trap_status_terminal e)

/-- Outside RUN any number of steps answers the same state (log 3). -/
theorem runSteps_of_not_run (k : Nat) {s : State} (hrun : s.status ≠ .run) : runSteps k s = .next s := by
  induction k with
  | zero => rfl
  | succ k ih => rw [runSteps_succ_of_next k (step_of_not_run hrun), ih]

/-- A run ends within its budget and one more step: by induction on the budget, `step_ends_or_costs_one` being the
step of it. -/
theorem runSteps_terminal {s : State} (hs : s.Inv) (hrun : s.status = .run) :
    ∃ t, runSteps (s.bud + 1) s = .next t ∧ t.status.terminal = true := by
  induction hbud : s.bud generalizing s with
  | zero =>
    obtain ⟨t, ht⟩ := step_total hs.ipNonneg hs.ipLe
    obtain hterminal | ⟨-, hcost⟩ := step_ends_or_costs_one hrun ht
    · exact ⟨t, runSteps_succ_of_next 0 ht, hterminal⟩
    · omega
  | succ n ih =>
    obtain ⟨t, ht⟩ := step_total hs.ipNonneg hs.ipLe
    rw [runSteps_succ_of_next (n + 1) ht]
    obtain hterminal | ⟨hrun', hcost⟩ := step_ends_or_costs_one hrun ht
    · exact ⟨t, runSteps_of_not_run _ (ne_run_of_terminal hterminal), hterminal⟩
    · exact ih (inv_step hs ht) hrun' (by omega)

/-- Settles O17: `runSteps_terminal`, with the terminal statuses named. -/
theorem everyRunEnds : Obligations.EveryRunEnds := by
  unfold Obligations.EveryRunEnds
  intro s hs hrun
  obtain ⟨t, ht, hterminal⟩ := runSteps_terminal hs hrun
  exact ⟨t, ht, hterminal, (terminal_iff _).mp hterminal⟩

/-! ### What the host reads -/

/-- `status` is read at any time (R208). -/
theorem hostRead_status (s : State) : hostRead .status s = .ok (.code s.status.code) :=
  if_neg fun ⟨_, hne⟩ => hne rfl

section Reads

variable {s : State}

theorem hostRead_of_run {r : HostRead} (hrun : s.status = .run) (hr : r ≠ .status) :
    hostRead r s = .error .readWhileRunning :=
  if_pos ⟨hrun, hr⟩

theorem hostRead_of_not_run (r : HostRead) (hrun : s.status ≠ .run) : hostRead r s = s.look r :=
  if_neg fun ⟨hrun', _⟩ => hrun hrun'

theorem look_cell_of_some {i : Int} {v : Byte} (h : s.cell i = some v) : s.look (.cell i) = .ok (.byte v) := by
  simp only [State.look, h]

theorem look_cell_of_outside {i : Int} (h : i < -25000 ∨ 24999 < i) : s.look (.cell i) = .error .noSuchCell := by
  have hnone : s.cell i = none := if_neg (not_inTape_of_outside h)
  simp only [State.look, hnone]

end Reads

/-- A run has a result exactly when it ended normally, and that is the output (R152). -/
theorem runResult_eq_some_iff (s : State) (bs : List Byte) :
    runResult s = some bs ↔ (s.status = .haltEnd ∨ s.status = .haltBudget) ∧ bs = s.out := by
  cases h : s.status with
  | haltEnd | haltBudget => simp [runResult, h, eq_comm]
  | idle | run | faultTape | faultBracket => simp [runResult, h]

/-- Settles O47: outside RUN every read looks at its element, and only a cell can be missing. -/
theorem hostReads : Obligations.HostReads := by
  unfold Obligations.HostReads
  refine fun s => ⟨hostRead_status s, fun hrun r => hostRead_of_run hrun, fun hrun => ?_, runResult_eq_some_iff s⟩
  refine ⟨hostRead_of_not_run _ hrun, hostRead_of_not_run _ hrun, hostRead_of_not_run _ hrun,
    hostRead_of_not_run _ hrun, hostRead_of_not_run _ hrun, fun i v hv => ?_, fun i hi => ?_⟩
  · rw [hostRead_of_not_run _ hrun, look_cell_of_some hv]
  · rw [hostRead_of_not_run _ hrun, look_cell_of_outside hi]

end Sys2Proof.Proofs

/-! Faults (60_exceptions.md): the status tells which fault an instruction has taken, when each arises, in which order
the events of a step come, and that no instruction sees the budget. -/

namespace Sys2Proof.Proofs

open Sys2Proof.Machine Sys2Proof.Laws

/-! ### When each fault arises -/

theorem trap_status_injective : ∀ {e e' : Trap}, e.status = e'.status → e = e'
  | .tapeIndexOutOfRange, .tapeIndexOutOfRange, _ => rfl
  | .unmatchedBracket, .unmatchedBracket, _ => rfl

/-- From RUN, the status an instruction leaves says whether it has taken a fault, and which (R171, R172, R173). -/
theorem status_eq_trap_status_iff_raises {i : Instr} {s t : State} (hrun : s.status = .run) (h : exec i s = .next t)
    (e : Trap) : t.status = e.status ↔ Raises i s e := by
  constructor
  · intro hstatus
    obtain ⟨u, heffect, rfl⟩ | ⟨e', hraises, rfl⟩ := exec_next h
    · obtain ⟨-, -, -, -, hkept⟩ := heffect.keeps
      exact absurd (hstatus.symm.trans (hkept.trans hrun)) (trap_status_ne_run e)
    · exact trap_status_injective hstatus ▸ hraises
  · intro hraises
    cases (exec_of_raises hraises).symm.trans h
    rfl

section Causes

variable {i : Instr} {s : State}

/-- TapeIndexOutOfRange is raised by the instructions that access a cell, where there is none (R171). -/
theorem raises_tapeIndexOutOfRange_iff :
    Raises i s .tapeIndexOutOfRange ↔ accessesCell i = true ∧ ¬ InTape s.dp := by
  constructor
  · intro h
    cases h <;> exact ⟨rfl, ‹_›⟩
  · rintro ⟨hacc, hout⟩
    cases i with
    | right | left | nop => cases hacc
    | inc => exact .inc hout
    | dec => exact .dec hout
    | output => exact .output hout
    | input => exact .input hout
    | loopOpen => exact .loopOpen hout
    | loopClose => exact .loopClose hout

/-- UnmatchedBracket is raised by a taken bracket whose scan leaves the text (R172). -/
theorem raises_unmatchedBracket_iff :
    Raises i s .unmatchedBracket ↔
      (i = .loopOpen ∧ s.cell s.dp = some 0 ∧ scanForward s.prog s.ip = .unmatched) ∨
      (i = .loopClose ∧ (∃ v, s.cell s.dp = some v ∧ v ≠ 0) ∧ scanBackward s.prog s.ip = .unmatched) := by
  constructor
  · intro h
    cases h with
    | openScan hin hv hscan => exact .inl ⟨rfl, cell_eq_some.mpr ⟨hin, hv⟩, hscan⟩
    | closeScan hin hv hscan => exact .inr ⟨rfl, ⟨_, cell_eq_some.mpr ⟨hin, rfl⟩, hv⟩, hscan⟩
  · rintro (⟨rfl, hcell, hscan⟩ | ⟨rfl, ⟨v, hcell, hv⟩, hscan⟩)
    · obtain ⟨hin, hzero⟩ := cell_eq_some.mp hcell
      exact .openScan hin hzero hscan
    · obtain ⟨hin, rfl⟩ := cell_eq_some.mp hcell
      exact .closeScan hin hv hscan

end Causes

/-- There is no cell exactly beyond either end (R15, R171). -/
theorem not_inTape_iff_outside (i : Int) : ¬ InTape i ↔ i < -25000 ∨ 24999 < i := by
  refine ⟨fun h => ?_, not_inTape_of_outside⟩
  rw [← not_le, ← not_le, ← not_and_or]
  exact h

/-- Settles O32: FAULT_TAPE is the status of TapeIndexOutOfRange, whose cause is `raises_tapeIndexOutOfRange_iff`. -/
theorem tapeFaultExactlyOnAccess : Obligations.TapeFaultExactlyOnAccess := by
  unfold Obligations.TapeFaultExactlyOnAccess
  intro i s t hrun h
  rw [← not_inTape_iff_outside, ← raises_tapeIndexOutOfRange_iff]
  exact status_eq_trap_status_iff_raises hrun h .tapeIndexOutOfRange

/-- Settles O33: FAULT_BRACKET is the status of UnmatchedBracket, and a scan leaves the text where there is no partner. -/
theorem bracketFaultExactlyOnScan : Obligations.BracketFaultExactlyOnScan := by
  unfold Obligations.BracketFaultExactlyOnScan
  intro i s t n ⟨hrun, _, hlt, _⟩ hip h
  have hn : n < s.prog.length := by omega
  rw [← scanForward_eq_unmatched_iff, ← scanBackward_eq_unmatched_iff hn, ← hip, ← raises_unmatchedBracket_iff]
  exact status_eq_trap_status_iff_raises hrun h .unmatchedBracket

/-! ### The order of events in one step -/

/-- FAULT_BRACKET needs both stop tests and the bounds check passed (R177). -/
theorem passed_of_step_faultBracket {s t : State} (hrun : s.status = .run) (h : step s = .next t)
    (hstatus : t.status = .faultBracket) : s.ip < s.prog.length ∧ 0 < s.bud ∧ InTape s.dp := by
  obtain ⟨hrest, -⟩ | ⟨-, -, rfl⟩ | ⟨-, -, -, rfl⟩ | ⟨c, -, hip, hbud, -, hexec⟩ := step_next h
  · exact absurd hrun hrest
  · cases hstatus
  · cases hstatus
  · have hraises := (status_eq_trap_status_iff_raises hrun hexec .unmatchedBracket).mp hstatus
    exact ⟨hip, hbud, (bracket_of_raises hraises).1⟩

/-- Settles O35: each event is what the step answers where those before it do not apply. -/
theorem eventsOfStepInOrder : Obligations.EventsOfStepInOrder := by
  unfold Obligations.EventsOfStepInOrder
  intro s t hrun h
  refine ⟨fun hend => ?_, fun hip hbud => ?_, fun n c hip hc hbud hacc hout => ?_, passed_of_step_faultBracket hrun h⟩
  · cases (step_of_atEnd hrun hend).symm.trans h
    rfl
  · cases (step_of_spent hrun hip hbud).symm.trans h
    rfl
  · have hread : progRead s.prog s.ip = some c := by rw [hip, progRead_natCast, hc]
    have hraises := raises_tapeIndexOutOfRange_iff.mpr ⟨hacc, hout⟩
    exact (status_eq_trap_status_iff_raises hrun ((step_of_char hrun hbud hread).symm.trans h) _).mpr hraises

/-! ### The budget is not seen -/

/-- The state with another budget left. -/
def withBud (n : Nat) (s : State) : State := { s with bud := n }

section Budget

variable {i : Instr} {s u : State} (n : Nat)

theorem inTake_withBud (s : State) : (withBud n s).inTake = (s.inTake.1, withBud n s.inTake.2) := by
  cases hs : s.inp[s.icur]? with
  | some v => rw [inTake_of_some hs, inTake_of_some (s := withBud n s) hs]; rfl
  | none => rw [inTake_of_none hs, inTake_of_none (s := withBud n s) hs]

/-- An own effect is the same with another budget. -/
theorem effect_withBud (h : Effect i s u) : Effect i (withBud n s) (withBud n u) := by
  cases h with
  | input hin =>
    have heffect : Effect .input (withBud n s) _ := .input hin
    rwa [inTake_withBud] at heffect
  | right | left | inc | dec | output | openFall | openJump | closeFall | closeJump | nop =>
    constructor <;> assumption

/-- The budget decides no fault. -/
theorem raises_withBud {e : Trap} (h : Raises i s e) : Raises i (withBud n s) e := by
  cases h <;> constructor <;> assumption

/-- The budget decides no stop. -/
theorem stops_withBud (h : Stops i s) : Stops i (withBud n s) := by
  cases h <;> constructor <;> assumption

/-- With another budget an instruction answers the same but for the budget (R183). -/
theorem exec_withBud (m : Nat) (i : Instr) (s : State) :
    mapNext (withBud m) (exec i (withBud n s)) = mapNext (withBud m) (exec i s) := by
  obtain ⟨u, heffect⟩ | ⟨e, hraises⟩ | hstops := effect_or_raises_or_stops i s
  · rw [exec_of_effect heffect, exec_of_effect (effect_withBud n heffect)]
    rfl
  · rw [exec_of_raises hraises, exec_of_raises (raises_withBud n hraises)]
    rfl
  · rw [exec_of_stops hstops, exec_of_stops (stops_withBud n hstops)]

end Budget

/-- Settles O42: `exec_withBud` with the budgets left compared as 0. -/
theorem instructionsCannotSeeBudget : Obligations.InstructionsCannotSeeBudget := by
  unfold Obligations.InstructionsCannotSeeBudget
  exact fun i s n => exec_withBud n 0 i s

end Sys2Proof.Proofs

/-! Reset and hazards (70_reset_and_hazards.md): RESET and START keep the invariant, the cases of START that launch no
run, and what a larger budget adds to a run. -/

namespace Sys2Proof.Proofs

open Sys2Proof.Machine Sys2Proof.Laws

/-! ### A larger budget -/

/-- The state of a run that was launched with `n` more units of budget (R211). -/
def addBudget (n : Nat) (s : State) : State := { s with bud := s.bud + n, budget := s.budget + n }

section LargerBudget

variable {i : Instr} {s t u : State} (n : Nat)

theorem inTake_addBudget (s : State) : (addBudget n s).inTake = (s.inTake.1, addBudget n s.inTake.2) := by
  cases hs : s.inp[s.icur]? with
  | some v => rw [inTake_of_some hs, inTake_of_some (s := addBudget n s) hs]; rfl
  | none => rw [inTake_of_none hs, inTake_of_none (s := addBudget n s) hs]

/-- An own effect is the same with a larger budget. -/
theorem effect_addBudget (h : Effect i s u) : Effect i (addBudget n s) (addBudget n u) := by
  cases h with
  | input hin =>
    have heffect : Effect .input (addBudget n s) _ := .input hin
    rwa [inTake_addBudget] at heffect
  | right | left | inc | dec | output | openFall | openJump | closeFall | closeJump | nop =>
    constructor <;> assumption

/-- While a unit is left, the common tail takes it from the smaller budget and from the larger one alike (R149). -/
theorem retire_addBudget (hbud : 0 < s.bud) : (addBudget n s).retire = addBudget n s.retire := by
  have htail : s.bud + n - 1 = s.bud - 1 + n := by omega
  simp only [State.retire, addBudget, htail]

/-- A step that does not complete an instruction leaves the core at rest with the output kept; one that does is the same
with a larger budget. Nothing is said of the larger budget in the first case, where the smaller one may have been
spent. -/
theorem step_rests_or_addBudget (h : step s = .next t) :
    (t.status ≠ .run ∧ t.out = s.out) ∨ step (addBudget n s) = .next (addBudget n t) := by
  obtain ⟨hrest, rfl⟩ | ⟨-, -, rfl⟩ | ⟨-, -, -, rfl⟩ | ⟨c, hrun, -, hbud, hc, hexec⟩ := step_next h
  · exact .inl ⟨hrest, rfl⟩
  · exact .inl ⟨nofun, rfl⟩
  · exact .inl ⟨nofun, rfl⟩
  · obtain ⟨u, heffect, rfl⟩ | ⟨e, -, rfl⟩ := exec_next hexec
    · obtain ⟨-, hkept, -⟩ := heffect.keeps
      have hstep : step (addBudget n s) = exec (decodeChar c) (addBudget n s) :=
        step_of_char hrun (Nat.add_pos_left hbud n) hc
      rw [hstep, exec_of_effect (effect_addBudget n heffect), retire_addBudget n (hkept.symm ▸ hbud)]
      exact .inr rfl
    · exact .inl ⟨trap_status_ne_run e, rfl⟩

end LargerBudget

/-- Settles O19, by induction on the number of steps: the runs go alike while the smaller budget completes instructions;
once that run rests its output is that of the state before, which the other run only extends (R38). -/
theorem largerBudgetExtendsOutput : Obligations.LargerBudgetExtendsOutput := by
  unfold Obligations.LargerBudgetExtendsOutput
  intro k n s t u ht hu
  change runSteps k (addBudget n s) = .next u at hu
  induction k generalizing s with
  | zero => cases ht; cases hu; exact List.prefix_rfl
  | succ k ih =>
    obtain ⟨s', hs', ht'⟩ := runSteps_succ_next ht
    obtain ⟨hrest, hout⟩ | hstep := step_rests_or_addBudget n hs'
    · cases (runSteps_of_not_run k hrest).symm.trans ht'
      have hgrows : (addBudget n s).out <+: u.out := (outputGrowsAndCursorAdvances (k + 1) _ u hu).1
      rw [hout]
      exact hgrows
    · rw [runSteps_succ_of_next k hstep] at hu
      exact ih s' ht' hu

/-! ### RESET and START -/

/-- Settles O4: `inv_reset` and `inv_hostStart`. -/
theorem hostOperationsKeepInvariant : Obligations.HostOperationsKeepInvariant := by
  unfold Obligations.HostOperationsKeepInvariant
  exact ⟨fun _ _ => inv_reset, fun _ _ _ _ _ => inv_hostStart⟩

section Start

variable {s : State} {prog inp : List Byte} {budget : Nat}

/-- START with an empty program, where the rest of the launch fits, is the short-circuit (R202). -/
theorem hostStart_nil (hrun : s.status ≠ .run) (hfits : LaunchFits [] inp budget) :
    hostStart [] inp budget s = .next s.shortCircuit := by
  rw [hostStart, if_neg hrun, if_pos hfits, if_pos List.length_nil]

/-- START while RUN is refused whatever the launch (R203, U7; log 8). -/
theorem hostStart_of_run (hrun : s.status = .run) : hostStart prog inp budget s = .refused .startWhileRunning := by
  rw [hostStart, if_pos hrun]

/-- A launch that does not fit is refused, also with an empty program (R10, U9; log 8). -/
theorem hostStart_of_not_fits (hrun : s.status ≠ .run) (hfits : ¬ LaunchFits prog inp budget) :
    hostStart prog inp budget s = .refused .launchTooLarge := by
  rw [hostStart, if_neg hrun, if_neg hfits]

end Start

/-- Settles O45: the fields of the short-circuit. -/
theorem startWithEmptyProgram : Obligations.StartWithEmptyProgram := by
  unfold Obligations.StartWithEmptyProgram
  intro s inp budget hrun hILEN hB
  have hfits : LaunchFits [] inp budget := ⟨Nat.zero_le _, hILEN, hB⟩
  exact ⟨s.shortCircuit, hostStart_nil hrun hfits, rfl, rfl, rfl, rfl, rfl, rfl, rfl⟩

/-- Settles O46: a launch with PLEN, ILEN or B above MAXCNT does not fit. -/
theorem startRefusedByName : Obligations.StartRefusedByName := by
  unfold Obligations.StartRefusedByName
  refine fun s prog inp budget => ⟨hostStart_of_run, fun hrun hlarge => hostStart_of_not_fits hrun fun hfits => ?_⟩
  obtain ⟨hPLEN, hILEN, hB⟩ : prog.length ≤ 2147483647 ∧ inp.length ≤ 2147483647 ∧ budget ≤ 2147483647 := hfits
  omega

end Sys2Proof.Proofs
